-- ==== Sys2Proof/Word.lean ====
section
/-! DEFINITION. The widths of the machine's quantities (00_scope.md R4, R5): bytes, 16-bit words, and the fields of
an opcode. All values are unsigned; nothing is ever sign-extended (R5, R64). -/

namespace Sys2Proof

/-- XLEN = 8: a V register, DT, ST, a byte of memory (00_scope.md R4). -/
abbrev Byte := BitVec 8

/-- A 16-bit quantity: an opcode, PC, I, a stack slot (00_scope.md R4). -/
abbrev Word := BitVec 16

/-- A 4-bit opcode field: OP or N (30_encoding.md R63). -/
abbrev Nibble := BitVec 4

/-- The 12-bit opcode field NNN (30_encoding.md R63). -/
abbrev Addr12 := BitVec 12

/-- The number of a V register, 0 to 15: what an X or Y field names (10_state.md R10, 30_encoding.md R64). -/
abbrev Reg := Fin 16

end Sys2Proof
end

