-- ==== Sys2Proof/Config.lean ====
section
/-! DEFINITION. What an implementation fixes: the parameters that 00_scope.md R4 asks a model to keep as configuration
fields (each the spec's own decision, 92_eei_decisions.md), and the free random byte. The value the spec
chooses for each parameter is `Machine.params` (Sys2Proof/Machine/Params.lean). The constants R4 takes from the source
stand where they are used. -/

namespace Sys2Proof

/-- SEL_WIDTH: which trailing bits select in families 0 and E (30_encoding.md R67, D2, U2). -/
inductive SelWidth where
  | byte
  | nibble
  deriving DecidableEq, Repr

/-- OOB_POLICY: what an out-of-bounds fetch, stack or I-relative access does (60_exceptions.md R170 to R176, D4 to D7,
U1, U10). -/
inductive OobPolicy where
  /-- The spec's policy, the only one it describes: a precise fault that halts the core. -/
  | fault
  /-- Any other policy (the source names clamping and wrapping without describing them): the cycle's end is the free value
  `Machine.oobNext` (log entry 37). -/
  | other
  deriving DecidableEq, Repr

/-- DRAW_OOB: what a sprite pixel past an edge does: the literal linear index, dropped at 2048 and above; per-pixel
wrap; or clipping (44_draw.md R162, D8, U5). -/
inductive DrawOob where
  | literal
  | wrap
  | clip
  deriving DecidableEq, Repr

/-- VF_ORDER: which write of a flag-writing ALU instruction comes first (40_alu.md R80, D14, U4). -/
inductive VfOrder where
  | flagFirst
  | resultFirst
  deriving DecidableEq, Repr

/-- TIMER_PHASE: where in the cycle the timers decrement (30_encoding.md R60, D13, U8). -/
inductive TimerPhase where
  | after
  | before
  deriving DecidableEq, Repr

/-- BCD_ORDER: the digit stored at I (42_mem_transfer.md R126, D15, U7, 90_conflicts.md C1). -/
inductive BcdOrder where
  | hundredsFirst
  | onesFirst
  deriving DecidableEq, Repr

/-- FONT_INDEX_MASK: whether LD F,VX masks VX to its low nibble (42_mem_transfer.md R128, D16, U6). -/
inductive FontIndexMask where
  | unmasked
  | lowNibble
  deriving DecidableEq, Repr

/-- RESET_ZERO: what reset leaves in the state whose reset value the source does not give (10_state.md R30, D12,
U11), one value for each kind of state. -/
structure ResetFill where
  v     : Byte
  i     : Word
  stack : Word
  timer : Byte
  key   : Bool
  mem   : Byte
  deriving DecidableEq, Repr

/-- The parameters of 00_scope.md R4 that are fixed by a decision and not by the source. -/
structure Config where
  selWidth      : SelWidth
  oobPolicy     : OobPolicy
  drawOob       : DrawOob
  vfOrder       : VfOrder
  timerPhase    : TimerPhase
  bcdOrder      : BcdOrder
  fontIndexMask : FontIndexMask
  font          : List Byte
  resetFill     : ResetFill
  deriving DecidableEq, Repr

/-- The free value `draw_rnd()` (00_scope.md R9, 42_mem_transfer.md R127, 60_exceptions.md R185): the byte the host's
random source answers to draw number `n`. It has no body: nothing is known of any byte of it (log entry 17). -/
opaque Config.rndByte : Nat → Byte

end Sys2Proof
end

