-- ==== Sys2Proof/Machine/Params.lean ====
section
/-! DEFINITION. The value the spec chooses for each parameter of 00_scope.md R4 that is not fixed by the source. -/

namespace Sys2Proof.Machine

/-- FONT: the 80 bytes preloaded at 0x050, five to a glyph, glyph "0" first (10_state.md R31).
PRESUMED: from the family, the source gives no byte of it (D11, log entry 13). -/
def fontBytes : List Byte :=
  [0xF0, 0x90, 0x90, 0x90, 0xF0] ++ [0x20, 0x60, 0x20, 0x20, 0x70] ++
  [0xF0, 0x10, 0xF0, 0x80, 0xF0] ++ [0xF0, 0x10, 0xF0, 0x10, 0xF0] ++
  [0x90, 0x90, 0xF0, 0x10, 0x10] ++ [0xF0, 0x80, 0xF0, 0x10, 0xF0] ++
  [0xF0, 0x80, 0xF0, 0x90, 0xF0] ++ [0xF0, 0x10, 0x20, 0x40, 0x40] ++
  [0xF0, 0x90, 0xF0, 0x90, 0xF0] ++ [0xF0, 0x90, 0xF0, 0x10, 0xF0] ++
  [0xF0, 0x90, 0xF0, 0x90, 0x90] ++ [0xE0, 0x90, 0xE0, 0x90, 0xE0] ++
  [0xF0, 0x80, 0x80, 0x80, 0xF0] ++ [0xE0, 0x90, 0x90, 0x90, 0xE0] ++
  [0xF0, 0x80, 0xF0, 0x80, 0xF0] ++ [0xF0, 0x80, 0xF0, 0x80, 0x80]

/-- RESET_ZERO: zero everywhere (10_state.md R30). DESIGN CHOICE (D12, log entry 14). -/
def zeroFill : ResetFill := { v := 0, i := 0, stack := 0, timer := 0, key := false, mem := 0 }

/-- The spec's choice for every parameter (00_scope.md R4, the "value" column). DESIGN CHOICE, each with the decision
that R4 names (log entries 2, 5 to 8, 9, 10, 11, 13, 14, 15, 16 and 34). -/
def params : Config where
  selWidth := .byte
  oobPolicy := .fault
  drawOob := .literal
  vfOrder := .flagFirst
  timerPhase := .after
  bcdOrder := .hundredsFirst
  fontIndexMask := .unmasked
  font := fontBytes
  resetFill := zeroFill

end Sys2Proof.Machine
end

