-- ==== Sys2Proof/Syntax.lean ====
section
/-! DEFINITION. The instructions (30_encoding.md R68: the 34 rows of the opcode map, one constructor each, in the
map's order) and the abstract syntax of the spec's assembler (R72). Operand fields have the width of the encoding's
fields (R63), so an operand out of range cannot be written. -/

namespace Sys2Proof

/-- The 34 instructions of the opcode map (30_encoding.md R68). -/
inductive Instr where
  /-- CLS: clear the framebuffer (41_control_flow.md R100). -/
  | cls
  /-- RET: return (41_control_flow.md R101). -/
  | ret
  /-- JP NNN (41_control_flow.md R102). -/
  | jpNnn (nnn : Addr12)
  /-- CALL NNN (41_control_flow.md R103). -/
  | callNnn (nnn : Addr12)
  /-- SE VX,KK: skip if equal to the immediate (41_control_flow.md R106). -/
  | seVxKk (x : Reg) (kk : Byte)
  /-- SNE VX,KK: skip if not equal to the immediate (41_control_flow.md R107). -/
  | sneVxKk (x : Reg) (kk : Byte)
  /-- SE VX,VY: skip if the registers are equal (41_control_flow.md R108). -/
  | seVxVy (x y : Reg)
  /-- LD VX,KK (42_mem_transfer.md R120). -/
  | ldVxKk (x : Reg) (kk : Byte)
  /-- ADD VX,KK: no flag (42_mem_transfer.md R121). -/
  | addVxKk (x : Reg) (kk : Byte)
  /-- LD VX,VY (40_alu.md R81). -/
  | ldVxVy (x y : Reg)
  /-- OR VX,VY (40_alu.md R82). -/
  | orVxVy (x y : Reg)
  /-- AND VX,VY (40_alu.md R83). -/
  | andVxVy (x y : Reg)
  /-- XOR VX,VY (40_alu.md R84). -/
  | xorVxVy (x y : Reg)
  /-- ADD VX,VY: VF is the carry (40_alu.md R85). -/
  | addVxVy (x y : Reg)
  /-- SUB VX,VY: VF is VX greater than VY (40_alu.md R86). -/
  | subVxVy (x y : Reg)
  /-- SHR VX: VF is the bit shifted out (40_alu.md R87). -/
  | shrVx (x : Reg)
  /-- SUBN VX,VY: VY minus VX (40_alu.md R88). -/
  | subnVxVy (x y : Reg)
  /-- SHL VX: VF is the bit shifted out (40_alu.md R89). -/
  | shlVx (x : Reg)
  /-- SNE VX,VY: skip if the registers are not equal (41_control_flow.md R109). -/
  | sneVxVy (x y : Reg)
  /-- LD I,NNN (42_mem_transfer.md R122). -/
  | ldINnn (nnn : Addr12)
  /-- JP V0,NNN: jump-indexed (41_control_flow.md R104). -/
  | jpV0Nnn (nnn : Addr12)
  /-- RND VX,KK (42_mem_transfer.md R127). -/
  | rndVxKk (x : Reg) (kk : Byte)
  /-- DRW VX,VY,N (44_draw.md R160). -/
  | drwVxVyN (x y : Reg) (n : Nibble)
  /-- SKP VX: skip if the key is pressed (43_timer_peripheral.md R144). -/
  | skpVx (x : Reg)
  /-- SKNP VX: skip if the key is not pressed (43_timer_peripheral.md R145). -/
  | sknpVx (x : Reg)
  /-- LD VX,DT (43_timer_peripheral.md R140). -/
  | ldVxDt (x : Reg)
  /-- LD VX,K: wait for a key (43_timer_peripheral.md R146). -/
  | ldVxK (x : Reg)
  /-- LD DT,VX (43_timer_peripheral.md R141). -/
  | ldDtVx (x : Reg)
  /-- LD ST,VX (43_timer_peripheral.md R142). -/
  | ldStVx (x : Reg)
  /-- ADD I,VX (42_mem_transfer.md R123). -/
  | addIVx (x : Reg)
  /-- LD F,VX: the address of a font glyph (42_mem_transfer.md R128). -/
  | ldFVx (x : Reg)
  /-- LD B,VX: BCD store (42_mem_transfer.md R126). -/
  | ldBVx (x : Reg)
  /-- LD [I],VX: register dump, VX excluded (42_mem_transfer.md R124). -/
  | ldMemVx (x : Reg)
  /-- LD VX,[I]: register load, VX excluded (42_mem_transfer.md R125). -/
  | ldVxMem (x : Reg)
  deriving DecidableEq, Repr

/-- The mnemonics of the assembler (30_encoding.md R68, R72). -/
inductive Mnemonic where
  | cls | ret | jp | call | se | sne | ld | add | or | and | xor | sub | shr | subn | shl | rnd | drw | skp | sknp
  deriving DecidableEq, Repr

/-- An operand of the assembler (30_encoding.md R72): a V register, a number, or one of the literal operand names
`I`, `DT`, `ST`, `K` (key), `F` (font), `B` (BCD) and `[I]` (memory at I). -/
inductive Operand where
  | v (n : Nat)
  | num (n : Nat)
  | i | dt | st | k | f | b | atI
  deriving DecidableEq, Repr

/-- One line of the assembler (30_encoding.md R72): a mnemonic with its operands, destination first, or one of the two
data directives. -/
inductive AsmLine where
  | instr (m : Mnemonic) (ops : List Operand)
  | db (n : Nat)
  | dw (n : Nat)
  deriving DecidableEq, Repr

end Sys2Proof
end

