-- ==== Sys2Proof/WellFormed.lean ====
section
/-! DEFINITION. The checks on what is written for the machine: assembler lines, program images, configurations. An
`Instr` needs no check: its fields have the encoding's widths (log entry 35). -/

namespace Sys2Proof

/-- An assembler line is well formed: its operands are a shape that some row of the opcode map has for the mnemonic, a
register number is at most 15, and a number fits the row's field (30_encoding.md R63, R68, R72). -/
def AsmLine.wellFormed : AsmLine → Bool
  | .instr m ops =>
    match m, ops with
    | .cls, [] | .ret, [] => true
    | .jp, [.num n] | .call, [.num n] | .ld, [.i, .num n] => n < 0x1000
    | .jp, [.v r, .num n] => r == 0 && n < 0x1000
    | .se, [.v x, .num n] | .sne, [.v x, .num n] | .ld, [.v x, .num n] | .add, [.v x, .num n]
    | .rnd, [.v x, .num n] => x < 16 && n < 0x100
    | .se, [.v x, .v y] | .sne, [.v x, .v y] | .ld, [.v x, .v y] | .or, [.v x, .v y] | .and, [.v x, .v y]
    | .xor, [.v x, .v y] | .add, [.v x, .v y] | .sub, [.v x, .v y] | .subn, [.v x, .v y] => x < 16 && y < 16
    | .drw, [.v x, .v y, .num n] => x < 16 && y < 16 && n < 16
    | .shr, [.v x] | .shl, [.v x] | .skp, [.v x] | .sknp, [.v x]
    | .ld, [.v x, .dt] | .ld, [.v x, .k] | .ld, [.dt, .v x] | .ld, [.st, .v x] | .add, [.i, .v x]
    | .ld, [.f, .v x] | .ld, [.b, .v x] | .ld, [.atI, .v x] | .ld, [.v x, .atI] => x < 16
    | _, _ => false
  | .db n => n < 0x100
  | .dw n => n < 0x10000

/-- A program image fits in 0x200 to 0xFFF: at most 3584 bytes (70_reset_and_hazards.md R201, D26). -/
def imageFits (image : List Byte) : Bool := image.length ≤ 3584

/-- A configuration is well formed: its font is 16 glyphs of 5 bytes whose low nibbles are 0 (10_state.md R31). -/
def Config.wellFormed (c : Config) : Bool :=
  c.font.length == 80 && c.font.all (fun b => b &&& 0x0F == 0)

end Sys2Proof
end

