-- ==== Sys2Proof/Decode.lean ====
section
/-! DEFINITION. The opcode map as data (30_encoding.md R66 to R68, D1), the decoder over it, total on any bytes (R69,
R71), the encoder, and the assembler (R72). -/

namespace Sys2Proof

/-- OP, the leading nibble, bits 15:12 (30_encoding.md R63). -/
def fieldOp (w : Word) : Nibble := w.extractLsb' 12 4

/-- X, bits 11:8, a register number (30_encoding.md R63, R64). -/
def fieldX (w : Word) : Reg := (w.extractLsb' 8 4).toFin

/-- Y, bits 7:4, a register number (30_encoding.md R63, R64). -/
def fieldY (w : Word) : Reg := (w.extractLsb' 4 4).toFin

/-- N, bits 3:0 (30_encoding.md R63). -/
def fieldN (w : Word) : Nibble := w.extractLsb' 0 4

/-- KK, bits 7:0 (30_encoding.md R63). -/
def fieldKk (w : Word) : Byte := w.extractLsb' 0 8

/-- NNN, bits 11:0 (30_encoding.md R63). -/
def fieldNnn (w : Word) : Addr12 := w.extractLsb' 0 12

/-- One row of the opcode map: a word is this instruction when its bits under `mask` are `bits`, and `build` reads the
operands from the word (30_encoding.md R68, columns "pattern" and "mask / match"). -/
structure OpcodeRow where
  mask  : Word
  bits  : Word
  build : Word → Instr

/-- The mask of a row of families 0 and E: the family and the secondary selector, which is the trailing byte, or the
trailing nibble under the other reading of SEL_WIDTH (30_encoding.md R67, D2). -/
def selectorMask : SelWidth → Word
  | .byte => 0xF0FF
  | .nibble => 0xF00F

/-- A row of family 0 or E whose pattern is `bits` under the selector mask. -/
def selectorRow (sel : SelWidth) (bits : Word) (build : Word → Instr) : OpcodeRow :=
  ⟨selectorMask sel, bits &&& selectorMask sel, build⟩

/-- Families 1 to 7 and 9 to D: one instruction each, selected by the leading nibble alone (30_encoding.md R66). The
trailing nibble of families 5 and 9 is not examined (R66, D28, log entry 3). -/
def singleRows : List OpcodeRow :=
  [ ⟨0xF000, 0x1000, fun w => .jpNnn (fieldNnn w)⟩,
    ⟨0xF000, 0x2000, fun w => .callNnn (fieldNnn w)⟩,
    ⟨0xF000, 0x3000, fun w => .seVxKk (fieldX w) (fieldKk w)⟩,
    ⟨0xF000, 0x4000, fun w => .sneVxKk (fieldX w) (fieldKk w)⟩,
    ⟨0xF000, 0x5000, fun w => .seVxVy (fieldX w) (fieldY w)⟩,
    ⟨0xF000, 0x6000, fun w => .ldVxKk (fieldX w) (fieldKk w)⟩,
    ⟨0xF000, 0x7000, fun w => .addVxKk (fieldX w) (fieldKk w)⟩,
    ⟨0xF000, 0x9000, fun w => .sneVxVy (fieldX w) (fieldY w)⟩,
    ⟨0xF000, 0xA000, fun w => .ldINnn (fieldNnn w)⟩,
    ⟨0xF000, 0xB000, fun w => .jpV0Nnn (fieldNnn w)⟩,
    ⟨0xF000, 0xC000, fun w => .rndVxKk (fieldX w) (fieldKk w)⟩,
    ⟨0xF000, 0xD000, fun w => .drwVxVyN (fieldX w) (fieldY w) (fieldN w)⟩ ]

/-- Family 0: CLS and RET; bits 11:8 are ignored (30_encoding.md R67, R70). -/
def family0Rows (sel : SelWidth) : List OpcodeRow :=
  [ selectorRow sel 0x00E0 (fun _ => .cls),
    selectorRow sel 0x00EE (fun _ => .ret) ]

/-- Family 8, selected by the trailing nibble; SHR and SHL ignore the Y field (30_encoding.md R67, R70). -/
def family8Rows : List OpcodeRow :=
  [ ⟨0xF00F, 0x8000, fun w => .ldVxVy (fieldX w) (fieldY w)⟩,
    ⟨0xF00F, 0x8001, fun w => .orVxVy (fieldX w) (fieldY w)⟩,
    ⟨0xF00F, 0x8002, fun w => .andVxVy (fieldX w) (fieldY w)⟩,
    ⟨0xF00F, 0x8003, fun w => .xorVxVy (fieldX w) (fieldY w)⟩,
    ⟨0xF00F, 0x8004, fun w => .addVxVy (fieldX w) (fieldY w)⟩,
    ⟨0xF00F, 0x8005, fun w => .subVxVy (fieldX w) (fieldY w)⟩,
    ⟨0xF00F, 0x8006, fun w => .shrVx (fieldX w)⟩,
    ⟨0xF00F, 0x8007, fun w => .subnVxVy (fieldX w) (fieldY w)⟩,
    ⟨0xF00F, 0x800E, fun w => .shlVx (fieldX w)⟩ ]

/-- Family E: the key skips (30_encoding.md R67, R68). -/
def familyERows (sel : SelWidth) : List OpcodeRow :=
  [ selectorRow sel 0xE09E (fun w => .skpVx (fieldX w)),
    selectorRow sel 0xE0A1 (fun w => .sknpVx (fieldX w)) ]

/-- Family F, selected by the trailing byte (30_encoding.md R67, R68). -/
def familyFRows : List OpcodeRow :=
  [ ⟨0xF0FF, 0xF007, fun w => .ldVxDt (fieldX w)⟩,
    ⟨0xF0FF, 0xF00A, fun w => .ldVxK (fieldX w)⟩,
    ⟨0xF0FF, 0xF015, fun w => .ldDtVx (fieldX w)⟩,
    ⟨0xF0FF, 0xF018, fun w => .ldStVx (fieldX w)⟩,
    ⟨0xF0FF, 0xF01E, fun w => .addIVx (fieldX w)⟩,
    ⟨0xF0FF, 0xF029, fun w => .ldFVx (fieldX w)⟩,
    ⟨0xF0FF, 0xF033, fun w => .ldBVx (fieldX w)⟩,
    ⟨0xF0FF, 0xF055, fun w => .ldMemVx (fieldX w)⟩,
    ⟨0xF0FF, 0xF065, fun w => .ldVxMem (fieldX w)⟩ ]

/-- The opcode map: 34 rows, no two of which match the same word (30_encoding.md R68).
PRESUMED: the patterns of 29 rows are the family's, not the source's (D1, log entry 1). -/
def opcodeTable (sel : SelWidth) : List OpcodeRow :=
  family0Rows sel ++ singleRows ++ family8Rows ++ familyERows sel ++ familyFRows

/-- Whether a row matches a word (30_encoding.md R68). -/
def OpcodeRow.hits (r : OpcodeRow) (w : Word) : Bool := w &&& r.mask == r.bits

/-- Why bytes are no instruction of the map. -/
inductive DecodeError where
  /-- Fewer than two bytes: no opcode is there (30_encoding.md R62). -/
  | truncated
  /-- The trailing selector of the family with this leading nibble matches none of its rows: the word is a no-op and the
  machine executes it as one (30_encoding.md R69). -/
  | unmatchedSelector (family : Nibble)
  deriving DecidableEq, Repr

/-- What the decoder answers. -/
inductive Decoded where
  | instr (i : Instr)
  | rejected (e : DecodeError)
  deriving DecidableEq, Repr

/-- Dispatch under a reading of SEL_WIDTH: the row that matches, or no row (30_encoding.md R66 to R69). -/
def decodeWith (sel : SelWidth) (w : Word) : Decoded :=
  match (opcodeTable sel).find? (fun r => r.hits w) with
  | some r => .instr (r.build w)
  | none => .rejected (.unmatchedSelector (fieldOp w))

/-- The decoder: total and a function of the 16 bits alone (30_encoding.md R71). -/
def decode (w : Word) : Decoded := decodeWith Machine.params.selWidth w

/-- An opcode from its two bytes, the byte at the lower address first: big-endian (20_memory.md R41, 30_encoding.md
R61). -/
def opcodeOf (hi lo : Byte) : Word := hi ++ lo

/-- The two bytes of an opcode, in the order of their addresses (20_memory.md R41). -/
def opcodeBytes (w : Word) : List Byte := [w.extractLsb' 8 8, w.extractLsb' 0 8]

/-- Decoding a stream of bytes: every instruction and every no-op word takes exactly two (30_encoding.md R62). The rest
of the stream is answered too. -/
def decodeBytes : List Byte → Decoded × List Byte
  | hi :: lo :: rest => (decode (opcodeOf hi lo), rest)
  | bs => (.rejected .truncated, bs)

/-- The instruction the decoder reads from an instruction whose bits are `w` in the numbering of
spec/opcode_table.json: one word, bit 0 its least significant bit, laid out high byte first. -/
def decodeTableWord (nbits w : Nat) : Option Instr :=
  match (decodeBytes (opcodeBytes (BitVec.ofNat 16 (w % 2 ^ nbits)))).1 with
  | .instr i => some i
  | .rejected _ => none

/-- A register number as a field of the word (30_encoding.md R63). -/
def regField (x : Reg) : Nibble := BitVec.ofFin x

/-- Format Z: family 0 with its selector byte; the ignored bits are written 0 (30_encoding.md R65, R70). -/
def formatZ (kk : Byte) : Word := 0x00#8 ++ kk

/-- Format A: leading nibble and address (30_encoding.md R65). -/
def formatA (op : Nibble) (nnn : Addr12) : Word := op ++ nnn

/-- Formats XK and XS: leading nibble, register, and an immediate or selector byte (30_encoding.md R65). -/
def formatXk (op : Nibble) (x : Reg) (kk : Byte) : Word := op ++ regField x ++ kk

/-- Formats XY and XYN: leading nibble, two registers and a nibble (30_encoding.md R65). -/
def formatXyn (op : Nibble) (x y : Reg) (n : Nibble) : Word := op ++ regField x ++ regField y ++ n

/-- The word of an instruction, from the patterns of 30_encoding.md R68; an ignored bit (R70) is written 0. -/
def encode : Instr → Word
  | .cls => formatZ 0xE0
  | .ret => formatZ 0xEE
  | .jpNnn nnn => formatA 0x1 nnn
  | .callNnn nnn => formatA 0x2 nnn
  | .seVxKk x kk => formatXk 0x3 x kk
  | .sneVxKk x kk => formatXk 0x4 x kk
  | .seVxVy x y => formatXyn 0x5 x y 0x0
  | .ldVxKk x kk => formatXk 0x6 x kk
  | .addVxKk x kk => formatXk 0x7 x kk
  | .ldVxVy x y => formatXyn 0x8 x y 0x0
  | .orVxVy x y => formatXyn 0x8 x y 0x1
  | .andVxVy x y => formatXyn 0x8 x y 0x2
  | .xorVxVy x y => formatXyn 0x8 x y 0x3
  | .addVxVy x y => formatXyn 0x8 x y 0x4
  | .subVxVy x y => formatXyn 0x8 x y 0x5
  | .shrVx x => formatXyn 0x8 x 0 0x6
  | .subnVxVy x y => formatXyn 0x8 x y 0x7
  | .shlVx x => formatXyn 0x8 x 0 0xE
  | .sneVxVy x y => formatXyn 0x9 x y 0x0
  | .ldINnn nnn => formatA 0xA nnn
  | .jpV0Nnn nnn => formatA 0xB nnn
  | .rndVxKk x kk => formatXk 0xC x kk
  | .drwVxVyN x y n => formatXyn 0xD x y n
  | .skpVx x => formatXk 0xE x 0x9E
  | .sknpVx x => formatXk 0xE x 0xA1
  | .ldVxDt x => formatXk 0xF x 0x07
  | .ldVxK x => formatXk 0xF x 0x0A
  | .ldDtVx x => formatXk 0xF x 0x15
  | .ldStVx x => formatXk 0xF x 0x18
  | .addIVx x => formatXk 0xF x 0x1E
  | .ldFVx x => formatXk 0xF x 0x29
  | .ldBVx x => formatXk 0xF x 0x33
  | .ldMemVx x => formatXk 0xF x 0x55
  | .ldVxMem x => formatXk 0xF x 0x65

/-- The bits of its word that an instruction ignores (30_encoding.md R70). -/
def ignoredBits : Instr → Word
  | .cls | .ret => 0x0F00
  | .seVxVy _ _ | .sneVxVy _ _ => 0x000F
  | .shrVx _ | .shlVx _ => 0x00F0
  | .jpNnn _ | .callNnn _ | .ldINnn _ | .jpV0Nnn _ => 0x0000
  | .seVxKk _ _ | .sneVxKk _ _ | .ldVxKk _ _ | .addVxKk _ _ | .rndVxKk _ _ => 0x0000
  | .ldVxVy _ _ | .orVxVy _ _ | .andVxVy _ _ | .xorVxVy _ _ | .addVxVy _ _ | .subVxVy _ _ | .subnVxVy _ _ => 0x0000
  | .drwVxVyN _ _ _ => 0x0000
  | .skpVx _ | .sknpVx _ | .ldVxDt _ | .ldVxK _ | .ldDtVx _ | .ldStVx _ | .addIVx _ | .ldFVx _ | .ldBVx _ => 0x0000
  | .ldMemVx _ | .ldVxMem _ => 0x0000

/-- The assembler line of an instruction, destination first (30_encoding.md R68, R72). -/
def listing : Instr → AsmLine
  | .cls => .instr .cls []
  | .ret => .instr .ret []
  | .jpNnn nnn => .instr .jp [.num nnn.toNat]
  | .callNnn nnn => .instr .call [.num nnn.toNat]
  | .seVxKk x kk => .instr .se [.v x, .num kk.toNat]
  | .sneVxKk x kk => .instr .sne [.v x, .num kk.toNat]
  | .seVxVy x y => .instr .se [.v x, .v y]
  | .ldVxKk x kk => .instr .ld [.v x, .num kk.toNat]
  | .addVxKk x kk => .instr .add [.v x, .num kk.toNat]
  | .ldVxVy x y => .instr .ld [.v x, .v y]
  | .orVxVy x y => .instr .or [.v x, .v y]
  | .andVxVy x y => .instr .and [.v x, .v y]
  | .xorVxVy x y => .instr .xor [.v x, .v y]
  | .addVxVy x y => .instr .add [.v x, .v y]
  | .subVxVy x y => .instr .sub [.v x, .v y]
  | .shrVx x => .instr .shr [.v x]
  | .subnVxVy x y => .instr .subn [.v x, .v y]
  | .shlVx x => .instr .shl [.v x]
  | .sneVxVy x y => .instr .sne [.v x, .v y]
  | .ldINnn nnn => .instr .ld [.i, .num nnn.toNat]
  | .jpV0Nnn nnn => .instr .jp [.v 0, .num nnn.toNat]
  | .rndVxKk x kk => .instr .rnd [.v x, .num kk.toNat]
  | .drwVxVyN x y n => .instr .drw [.v x, .v y, .num n.toNat]
  | .skpVx x => .instr .skp [.v x]
  | .sknpVx x => .instr .sknp [.v x]
  | .ldVxDt x => .instr .ld [.v x, .dt]
  | .ldVxK x => .instr .ld [.v x, .k]
  | .ldDtVx x => .instr .ld [.dt, .v x]
  | .ldStVx x => .instr .ld [.st, .v x]
  | .addIVx x => .instr .add [.i, .v x]
  | .ldFVx x => .instr .ld [.f, .v x]
  | .ldBVx x => .instr .ld [.b, .v x]
  | .ldMemVx x => .instr .ld [.atI, .v x]
  | .ldVxMem x => .instr .ld [.v x, .atI]

/-- The instruction a mnemonic and its operands name: the literal operand names select it (30_encoding.md R72). Numbers
are read into their fields; `AsmLine.wellFormed` says that they fit. -/
def instrOf (m : Mnemonic) (ops : List Operand) : Option Instr :=
  match m, ops with
  | .cls, [] => some .cls
  | .ret, [] => some .ret
  | .jp, [.num n] => some (.jpNnn (BitVec.ofNat 12 n))
  | .jp, [.v _, .num n] => some (.jpV0Nnn (BitVec.ofNat 12 n))
  | .call, [.num n] => some (.callNnn (BitVec.ofNat 12 n))
  | .se, [.v x, .num n] => some (.seVxKk (Fin.ofNat 16 x) (BitVec.ofNat 8 n))
  | .se, [.v x, .v y] => some (.seVxVy (Fin.ofNat 16 x) (Fin.ofNat 16 y))
  | .sne, [.v x, .num n] => some (.sneVxKk (Fin.ofNat 16 x) (BitVec.ofNat 8 n))
  | .sne, [.v x, .v y] => some (.sneVxVy (Fin.ofNat 16 x) (Fin.ofNat 16 y))
  | .ld, [.v x, .num n] => some (.ldVxKk (Fin.ofNat 16 x) (BitVec.ofNat 8 n))
  | .ld, [.v x, .v y] => some (.ldVxVy (Fin.ofNat 16 x) (Fin.ofNat 16 y))
  | .ld, [.i, .num n] => some (.ldINnn (BitVec.ofNat 12 n))
  | .ld, [.v x, .dt] => some (.ldVxDt (Fin.ofNat 16 x))
  | .ld, [.v x, .k] => some (.ldVxK (Fin.ofNat 16 x))
  | .ld, [.dt, .v x] => some (.ldDtVx (Fin.ofNat 16 x))
  | .ld, [.st, .v x] => some (.ldStVx (Fin.ofNat 16 x))
  | .ld, [.f, .v x] => some (.ldFVx (Fin.ofNat 16 x))
  | .ld, [.b, .v x] => some (.ldBVx (Fin.ofNat 16 x))
  | .ld, [.atI, .v x] => some (.ldMemVx (Fin.ofNat 16 x))
  | .ld, [.v x, .atI] => some (.ldVxMem (Fin.ofNat 16 x))
  | .add, [.v x, .num n] => some (.addVxKk (Fin.ofNat 16 x) (BitVec.ofNat 8 n))
  | .add, [.v x, .v y] => some (.addVxVy (Fin.ofNat 16 x) (Fin.ofNat 16 y))
  | .add, [.i, .v x] => some (.addIVx (Fin.ofNat 16 x))
  | .or, [.v x, .v y] => some (.orVxVy (Fin.ofNat 16 x) (Fin.ofNat 16 y))
  | .and, [.v x, .v y] => some (.andVxVy (Fin.ofNat 16 x) (Fin.ofNat 16 y))
  | .xor, [.v x, .v y] => some (.xorVxVy (Fin.ofNat 16 x) (Fin.ofNat 16 y))
  | .sub, [.v x, .v y] => some (.subVxVy (Fin.ofNat 16 x) (Fin.ofNat 16 y))
  | .subn, [.v x, .v y] => some (.subnVxVy (Fin.ofNat 16 x) (Fin.ofNat 16 y))
  | .shr, [.v x] => some (.shrVx (Fin.ofNat 16 x))
  | .shl, [.v x] => some (.shlVx (Fin.ofNat 16 x))
  | .rnd, [.v x, .num n] => some (.rndVxKk (Fin.ofNat 16 x) (BitVec.ofNat 8 n))
  | .drw, [.v x, .v y, .num n] => some (.drwVxVyN (Fin.ofNat 16 x) (Fin.ofNat 16 y) (BitVec.ofNat 4 n))
  | .skp, [.v x] => some (.skpVx (Fin.ofNat 16 x))
  | .sknp, [.v x] => some (.sknpVx (Fin.ofNat 16 x))
  | _, _ => none

/-- The bytes an assembler line places in memory, none where the line is ill-formed: an instruction's word and a DW's
word high byte first, a DB's byte (30_encoding.md R72). -/
def assemble (l : AsmLine) : Option (List Byte) :=
  if l.wellFormed then
    match l with
    | .instr m ops => (instrOf m ops).map (fun i => opcodeBytes (encode i))
    | .db n => some [BitVec.ofNat 8 n]
    | .dw n => some (opcodeBytes (BitVec.ofNat 16 n))
  else none

/-- A mnemonic as it is written (30_encoding.md R72). -/
def mnemonicText : Mnemonic → String
  | .cls => "CLS" | .ret => "RET" | .jp => "JP" | .call => "CALL" | .se => "SE" | .sne => "SNE" | .ld => "LD"
  | .add => "ADD" | .or => "OR" | .and => "AND" | .xor => "XOR" | .sub => "SUB" | .shr => "SHR" | .subn => "SUBN"
  | .shl => "SHL" | .rnd => "RND" | .drw => "DRW" | .skp => "SKP" | .sknp => "SKNP"

/-- A hexadecimal digit. -/
def hexDigit (n : Nat) : String :=
  ["0", "1", "2", "3", "4", "5", "6", "7", "8", "9", "A", "B", "C", "D", "E", "F"].getD n "?"

/-- The last `digits` hexadecimal digits of a number, without leading zeros (one digit at least). -/
def hexText : Nat → Nat → String
  | 0, _ => ""
  | digits + 1, n => (if n < 16 then "" else hexText digits (n / 16)) ++ hexDigit (n % 16)

/-- An operand as it is written: V0 to VF, a number in hexadecimal with `0x`, or a literal name (30_encoding.md R72). -/
def operandText : Operand → String
  | .v n => "V" ++ hexText 4 n
  | .num n => "0x" ++ hexText 4 n
  | .i => "I" | .dt => "DT" | .st => "ST" | .k => "K" | .f => "F" | .b => "B" | .atI => "[I]"

/-- Operands separated by commas (30_encoding.md R72). -/
def operandsText : List Operand → String
  | [] => ""
  | o :: os => " " ++ operandText o ++ os.foldl (fun t p => t ++ "," ++ operandText p) ""

/-- A line as it is written (30_encoding.md R72). -/
def lineText : AsmLine → String
  | .instr m ops => mnemonicText m ++ operandsText ops
  | .db n => "DB 0x" ++ hexText 4 n
  | .dw n => "DW 0x" ++ hexText 4 n

end Sys2Proof
end

