-- ==== Sys2Proof/Machine/State.lean ====
section
/-! DEFINITION. The state of the core (10_state.md R10 to R23): the tuple
(V, I, PC, SP, STACK, DT, ST, KEY, FB, MEM, FAULT) and nothing else, beside the model's own count of the random bytes
drawn; and its value after reset (R30). -/

namespace Sys2Proof.Machine

/-- Memory: the bytes that differ from the reset contents, as (address, byte) pairs with strictly rising addresses
(`Memory.wf`). An address that is not listed reads as `Memory.initial` says (Sys2Proof/Machine/Memory.lean). -/
abbrev Memory := List Host.Cell

/-- The framebuffer, 64 columns by 32 rows of one-bit cells, row 0 at the top; bit `x` of row `y` is the cell of
column `x` (10_state.md R20). Cells are reached through `Frame.cell` and `Frame.toggle`, by their linear index. -/
abbrev Frame := Vector (BitVec 64) 32

/-- FAULT.cause: the five values in use (60_exceptions.md R171; the codes 5 to 7 are never used). -/
inductive FaultCause where
  /-- NONE: no fault since reset; code 0. -/
  | noFault
  /-- FETCH_OOB: the fetch, with PC above 0xFFE; code 1 (R173). -/
  | fetchOob
  /-- STACK_OVERFLOW: CALL with SP = 16; code 2 (R174). -/
  | stackOverflow
  /-- STACK_UNDERFLOW: RET with SP = 0; code 3 (R175). -/
  | stackUnderflow
  /-- MEM_OOB: dump, load, BCD or draw past 0xFFF; code 4 (R176). -/
  | memOob
  deriving DecidableEq, Repr, Inhabited

/-- The FAULT register (10_state.md R22): cause, the pre-fetch PC of the faulting cycle, and 17 bits of information. -/
structure FaultReg where
  cause : FaultCause
  epc   : Word
  info  : BitVec 17
  deriving DecidableEq, Repr, Inhabited

/-- The state of the core, one field for each piece of state of 10_state.md; `draws` alone is the model's own. -/
structure State where
  /-- V0 to VF (R10); V15 is VF, the flag (R11). -/
  v     : Vector Byte 16
  /-- I, the index register (R12). -/
  i     : Word
  /-- PC; between cycles the address of the next instruction (R13). -/
  pc    : Word
  /-- SP, 0 to 16: the number of return addresses on the stack (R15). -/
  sp    : Fin 17
  /-- STACK, 16 slots; a slot keeps its value when it is popped (R16). -/
  stack : Vector Word 16
  /-- DT, the delay timer (R17). -/
  dt    : Byte
  /-- ST, the sound timer (R18). -/
  st    : Byte
  /-- KEY, true meaning pressed; only the host writes it (R19). -/
  key   : Vector Bool 16
  /-- FB (R20). -/
  fb    : Frame
  /-- MEM (R21). -/
  mem   : Memory
  /-- FAULT (R22). -/
  fault : FaultReg
  /-- The model's own: how many random bytes have been drawn, the index of the next free value (log entry 17). -/
  draws : Nat
  deriving DecidableEq, Repr, Inhabited

/-- The state after reset when memory holds `m` and the other state the source does not initialise holds `f` (10_state.md
R30): PC is 0x200, SP is 0, the framebuffer is off, no fault. -/
def State.resetWith (f : ResetFill) (m : Memory) : State where
  v := Vector.replicate 16 f.v
  i := f.i
  pc := 0x200
  sp := 0
  stack := Vector.replicate 16 f.stack
  dt := f.timer
  st := f.timer
  key := Vector.replicate 16 f.key
  fb := Vector.replicate 32 0
  mem := m
  fault := { cause := .noFault, epc := 0, info := 0 }
  draws := 0

/-- The state after reset (10_state.md R30, 70_reset_and_hazards.md R200). DESIGN CHOICE: zero in every place the
source leaves open (RESET_ZERO, D12, log entry 14). -/
def State.reset : State := State.resetWith params.resetFill []

/-- The free value of OOB_POLICY other than the fault: where a cycle that meets the condition of `cause` ends, from the
state the check was made in: the one the cycle began with, ticked already where an instruction makes the check and
TIMER_PHASE is `before` (DESIGN CHOICE, `cycleAround`). It has no body, so a claim about another policy holds of every one (log entry 37). The machine itself
never uses it: its policy is the fault. -/
opaque oobNext : FaultCause → State → State

/-- What could stop the model itself: NOTHING. The four faults of the hardware (60_exceptions.md R171) are described
by the spec together with the state they leave, so a meaning takes them as a NEXT state with FAULT written (R172), and
a halted core's cycle is a next state too (30_encoding.md R60). No step raises a fault of this type (safe). -/
inductive Fault where
  deriving DecidableEq, Repr

/-- Why the model would give no meaning. -/
inductive Refusal where
  /-- Raised by an arm of `exec` whose instruction has no meaning yet; none is left, so by nobody. Safe: a refused
  instruction proves nothing. -/
  | notModelled (mnemonic : String)
  deriving DecidableEq, Repr

/-- What an instruction or a cycle answers. -/
abbrev Result := Host.Outcome State Fault Refusal

end Sys2Proof.Machine
end

