-- ==== Sys2Proof/Machine/Memory.lean ====
section
/-! DEFINITION. The memory primitives (00_scope.md R7, 20_memory.md R40) over the canonical list of changed bytes. They
are total; the rules call them only for addresses 0x000 to 0xFFF, after the check of R45 (log entry 32). -/

namespace Sys2Proof.Machine

/-- What reset leaves at an address under a configuration: FONT at 0x050 to 0x09F, RESET_ZERO's fill everywhere else
(10_state.md R30, R31). -/
def Memory.initialUnder (c : Config) (a : Nat) : Byte :=
  if 0x050 ≤ a ∧ a < 0x0A0 then c.font.getD (a - 0x050) c.resetFill.mem else c.resetFill.mem

/-- What an address that is not listed reads as, under every configuration: what reset leaves there under the spec's. It is
the representation's and no parameter: memory after reset under another configuration lists what differs from it
(`Memory.resetUnder`, log entry 31). -/
def Memory.initial (a : Nat) : Byte := Memory.initialUnder params a

/-- MemRead(a, 1) (20_memory.md R40). -/
def Memory.read : Memory → Nat → Byte
  | [], a => Memory.initial a
  | (b, w) :: m, a => if a = b then w else Memory.read m a

/-- MemWrite(a, 1, v) (20_memory.md R40), in canonical form: writing what the address reads as unlisted removes its
entry. -/
def Memory.write : Memory → Nat → Byte → Memory
  | [], a, v => if v = Memory.initial a then [] else [(a, v)]
  | (b, w) :: m, a, v =>
    if a < b then (if v = Memory.initial a then (b, w) :: m else (a, v) :: (b, w) :: m)
    else if a = b then (if v = Memory.initial a then m else (a, v) :: m)
    else (b, w) :: Memory.write m a v

/-- Bytes at ascending addresses from `a` (20_memory.md R41): the transfer of a dump, a BCD store, or the loader. -/
def Memory.writeBytes : Memory → Nat → List Byte → Memory
  | m, _, [] => m
  | m, a, v :: vs => Memory.writeBytes (m.write a v) (a + 1) vs

/-- Memory whose first `n` bytes are what reset leaves under a configuration. -/
def Memory.resetBelow (c : Config) : Nat → Memory
  | 0 => []
  | n + 1 => (Memory.resetBelow c n).write n (Memory.initialUnder c n)

/-- Memory after reset under a configuration, all 4096 bytes (10_state.md R30, R31). It is irreducible so that no
unifier runs through them. -/
@[irreducible] def Memory.resetUnder (c : Config) : Memory := Memory.resetBelow c 0x1000

/-- `n` bytes at ascending addresses from `a` (20_memory.md R41): the sprite rows of a draw. -/
def Memory.readBytes (m : Memory) (a n : Nat) : List Byte := (List.range n).map (fun k => m.read (a + k))

/-- The canonical form: addresses strictly rise, lie in memory, and no entry says what the address reads as unlisted. -/
abbrev Memory.wf (m : Memory) : Prop :=
  m.Pairwise (fun p q => p.1 < q.1) ∧ ∀ c ∈ m, c.1 < 0x1000 ∧ c.2 ≠ Memory.initial c.1

end Sys2Proof.Machine
end

