-- ==== Sys2Proof/Machine/Ops.lean ====
section
/-! DEFINITION. The named operations over the state that the meanings share: registers, the program counter, the call
stack, the framebuffer, the I-relative access check, raising a fault, the timers. -/

namespace Sys2Proof.Machine

/-- `V[x]` (00_scope.md R6). -/
def State.reg (s : State) (x : Reg) : Byte := s.v[x]

/-- `V[x] <- b` (00_scope.md R6); no register is hard-wired (10_state.md R10). -/
def State.setReg (s : State) (x : Reg) (b : Byte) : State := { s with v := s.v.set x b }

/-- `I <- a` (10_state.md R12). -/
def State.setI (s : State) (a : Word) : State := { s with i := a }

/-- `PC <- a` (00_scope.md R6). -/
def State.setPc (s : State) (a : Word) : State := { s with pc := a }

/-- `DT <- b` (10_state.md R17). -/
def State.setDt (s : State) (b : Byte) : State := { s with dt := b }

/-- `ST <- b` (10_state.md R18). -/
def State.setSt (s : State) (b : Byte) : State := { s with st := b }

/-- The fetch's `PC <- p + 2`, before the routine runs (30_encoding.md R60, 10_state.md R13). -/
def State.advance (s : State) : State := s.setPc (s.pc + 2)

/-- `Skip(cond)`: two more bytes when the condition holds (41_control_flow.md R105). -/
def State.skipIf (s : State) (c : Bool) : State := if c then s.setPc (s.pc + 2) else s

/-- `PC <- PC - 2`: back to the instruction just fetched (43_timer_peripheral.md R146). -/
def State.rewind (s : State) : State := s.setPc (s.pc - 2)

/-- FAULT.cause as the host reads it, three bits (60_exceptions.md R171, R188). -/
def causeCode : FaultCause → BitVec 3
  | .noFault => 0
  | .fetchOob => 1
  | .stackOverflow => 2
  | .stackUnderflow => 3
  | .memOob => 4

/-- The core is halted: `FAULT.cause != 0` (10_state.md R22). -/
def State.halted (s : State) : Bool := s.fault.cause != .noFault

/-- `raise Fault(cause, info)` on the state the cycle began with (60_exceptions.md R172): FAULT is written, with the
pre-fetch PC, and every write of the cycle, the PC's advance included, is discarded. -/
def State.raise (s : State) (cause : FaultCause) (info : BitVec 17) : State :=
  { s with fault := { cause := cause, epc := s.pc, info := info } }

/-- What a cycle that began in `s` and meets the condition of `cause` ends in: the fault, or under another OOB_POLICY a
free state (60_exceptions.md R170, D4). -/
def State.outOfRange (s : State) (o : OobPolicy) (cause : FaultCause) (info : BitVec 17) : State :=
  match o with
  | .fault => s.raise cause info
  | .other => oobNext cause s

/-- The highest address of an access of `len > 0` bytes at `I`, over the unbounded integers: no wrap at 12 or at 16 bits
(20_memory.md R45, 42_mem_transfer.md R129). -/
def State.lastAddress (s : State) (len : Nat) : Nat := s.i.toNat + len - 1

/-- The check of 20_memory.md R45: an access of `len` bytes at `I` raises MEM_OOB when its highest address is above
0xFFF; an access of no byte cannot fault. -/
def State.outOfBounds (s : State) (len : Nat) : Bool := 0 < len && 0xFFF < s.lastAddress len

/-- An instruction that accesses `len` bytes at `I`: it raises MEM_OOB before any write (60_exceptions.md R176), or it
ends in `t`. -/
def State.access (s : State) (o : OobPolicy) (len : Nat) (t : State) : Result :=
  if s.outOfBounds len then .next (s.outOfRange o .memOob (BitVec.ofNat 17 (s.lastAddress len))) else .next t

/-- Write bytes from address `I` upward; `I` is not changed (42_mem_transfer.md R129). -/
def State.storeAtI (s : State) (bs : List Byte) : State := { s with mem := s.mem.writeBytes s.i.toNat bs }

/-- CALL's push of the return address and jump (41_control_flow.md R103): `s` is the state after the fetch, so its PC is
the return address. The pre-fetch state is `p`, to which an overflow returns (60_exceptions.md R174). -/
def State.call (p s : State) (o : OobPolicy) (target : Word) : Result :=
  if h : s.sp.val < 16 then
    .next { s with stack := s.stack.set s.sp.val s.pc, sp := ⟨s.sp.val + 1, by omega⟩, pc := target }
  else .next (p.outOfRange o .stackOverflow (BitVec.ofNat 17 p.sp.val))

/-- RET's pop (41_control_flow.md R101); an underflow returns to the pre-fetch state `p` (60_exceptions.md R175). -/
def State.ret (p s : State) (o : OobPolicy) : Result :=
  if h : 0 < s.sp.val then
    .next { s with sp := ⟨s.sp.val - 1, by omega⟩, pc := s.stack[s.sp.val - 1]'(by omega) }
  else .next (p.outOfRange o .stackUnderflow (BitVec.ofNat 17 p.sp.val))

/-- FB[n]; there is no cell at 2048 or above (10_state.md R20). -/
def Frame.cell (f : Frame) (n : Nat) : Bool :=
  if h : n / 64 < 32 then f[n / 64].getLsbD (n % 64) else false

/-- `FB[n] <- FB[n] xor 1` (44_draw.md R160). -/
def Frame.toggle (f : Frame) (n : Nat) : Frame :=
  if h : n / 64 < 32 then
    f.set (n / 64) (f[n / 64] ^^^ BitVec.twoPow 64 (n % 64))
  else f

/-- Every cell off (41_control_flow.md R100). -/
def Frame.clear : Frame := Vector.replicate 32 0

/-- One timer's decrement: by exactly 1 while positive (60_exceptions.md R180). -/
def tickDown (b : Byte) : Byte := if b = 0 then 0 else b - 1

/-- `TimerTick()` (60_exceptions.md R180). -/
def State.timerTick (s : State) : State := { s with dt := tickDown s.dt, st := tickDown s.st }

end Sys2Proof.Machine
end

