-- ==== Sys2Proof/Machine/Cycle.lean ====
section
/-! DEFINITION. The parts of one cycle (30_encoding.md R60): the fetch, the no-op, the end of the cycle. -/

namespace Sys2Proof.Machine

/-- `Fetch(p)` at the current PC, big-endian (30_encoding.md R61). -/
def State.fetch (s : State) : Word := opcodeOf (s.mem.read s.pc.toNat) (s.mem.read (s.pc.toNat + 1))

/-- Both bytes of the opcode lie in memory: PC is at most 0xFFE (60_exceptions.md R173). -/
def State.fetchable (s : State) : Bool := s.pc.toNat ≤ 0xFFE

/-- FETCH_OOB with the pre-fetch PC (60_exceptions.md R171, R173). -/
def State.fetchFault (s : State) (o : OobPolicy) : State := s.outOfRange o .fetchOob (s.pc.setWidth 17)

/-- A word no row matches: PC advances and no routine runs (30_encoding.md R69). -/
def noOp (s : State) : Result := .next s.advance

/-- A cycle around the routine `run`: `TimerTick` after it, where it raised no fault (30_encoding.md R60,
60_exceptions.md R172, R180). Under the other reading of TIMER_PHASE the tick comes first, and a fault discards it (D13,
log entry 15). DESIGN CHOICE, where OOB_POLICY is not the fault, of which the spec says nothing (log entry 37): an
instruction's free state is ticked when it is not halted under `after`; under `before` the free value is given the already
ticked state, and a free state that is halted gets the DT and ST that the cycle began with. -/
def cycleAround (ph : TimerPhase) (run : State → Result) (s : State) : Result :=
  match ph with
  | .after =>
    match run s with
    | .next t => .next (if t.halted then t else t.timerTick)
    | .fault r => .fault r
    | .refused r => .refused r
  | .before =>
    match run s.timerTick with
    | .next t => .next (if t.halted then { t with dt := s.dt, st := s.st } else t)
    | .fault r => .fault r
    | .refused r => .refused r

/-- `Cycle()` with `run` as `Execute` (30_encoding.md R60): a halted core does nothing; a PC above 0xFFE faults; otherwise
fetch, advance, execute, tick. -/
def cycleOf (c : Config) (run : Word → State → Result) (s : State) : Result :=
  if s.halted then .next s
  else if s.fetchable then cycleAround c.timerPhase (run s.fetch) s
  else .next (s.fetchFault c.oobPolicy)

/-- Place a word where the next fetch reads it, high byte first; nothing else changes. With PC above 0xFFE there is no
such place and the state stays. -/
def State.placeAtPc (s : State) (w : Word) : State :=
  if s.fetchable then { s with mem := s.mem.writeBytes s.pc.toNat (opcodeBytes w) } else s

end Sys2Proof.Machine
end

