-- ==== Sys2Proof/Machine/Flags.lean ====
section
/-! DEFINITION. The flag computations of the instructions that write VF (10_state.md R11) and the order of the two writes
(40_alu.md R80). VF is an ordinary register: its flag values are 0 and 1. -/

namespace Sys2Proof.Machine

/-- VF's number (10_state.md R11). -/
def vf : Reg := 15

/-- A flag as the byte VF receives (10_state.md R11). -/
def flagByte (c : Bool) : Byte := if c then 1 else 0

/-- The carry out of bit 7 of an addition (40_alu.md R85). -/
def carryFlag (a b : Byte) : Byte := flagByte (255 < a.toNat + b.toNat)

/-- `a > b`, strictly, unsigned (40_alu.md R86, R88; 90_conflicts.md C3). -/
def greaterFlag (a b : Byte) : Byte := flagByte (b.toNat < a.toNat)

/-- The bit a right shift moves out (40_alu.md R87). -/
def lowBitFlag (a : Byte) : Byte := flagByte (a.getLsbD 0)

/-- The bit a left shift moves out (40_alu.md R89). -/
def highBitFlag (a : Byte) : Byte := flagByte (a.getLsbD 7)

/-- The two writes of a flag-writing ALU instruction, in the order VF_ORDER says: they meet when X = 15, and then the
second one stays (40_alu.md R80, D14, log entry 9). -/
def State.setResultAndFlag (o : VfOrder) (s : State) (x : Reg) (result flag : Byte) : State :=
  match o with
  | .flagFirst => (s.setReg vf flag).setReg x result
  | .resultFirst => (s.setReg x result).setReg vf flag

end Sys2Proof.Machine
end

