-- ==== Sys2Proof/Machine/Operands.lean ====
section
/-! DEFINITION. The operand forms: immediates widened with zeros, the registers a dump or load names, the key a register
names, the address of a glyph, the decimal digits of a byte, a sprite's origin. -/

namespace Sys2Proof.Machine

/-- NNN widened to 16 bits with zeros (30_encoding.md R64). -/
def addressOf (nnn : Addr12) : Word := nnn.setWidth 16

/-- A byte widened to 16 bits with zeros (00_scope.md R5). -/
def widen (b : Byte) : Word := b.setWidth 16

/-- V0 to V(X-1), in ascending order: what LD [I],VX stores (42_mem_transfer.md R124; VX is excluded). -/
def State.regsBelow (s : State) (x : Reg) : List Byte := s.v.toList.take x.val

/-- The registers with V0 to V(X-1) read from `I` upward: what LD VX,[I] leaves (42_mem_transfer.md R125; VX is
excluded). -/
def State.loadBelow (s : State) (x : Reg) : Vector Byte 16 :=
  Vector.ofFn (fun k : Fin 16 => if k < x then s.mem.read (s.i.toNat + k.val) else s.v[k])

/-- `Pressed(b)`: the whole byte is compared with 16, it is not masked (43_timer_peripheral.md R143). -/
def State.pressed (s : State) (b : Byte) : Bool := if h : b.toNat < 16 then s.key[b.toNat] else false

/-- The least pressed key, scanning 0 to 15 (43_timer_peripheral.md R146). -/
def State.firstKey (s : State) : Option (Fin 16) := (List.finRange 16).find? (fun k => s.key[k])

/-- The address LD F,VX computes: 0x050 + 5 * VX, VX whole unless FONT_INDEX_MASK says to mask it
(42_mem_transfer.md R128, D16). -/
def glyphAddress (m : FontIndexMask) (b : Byte) : Word :=
  let digit := match m with
    | .unmasked => b.toNat
    | .lowNibble => b.toNat % 16
  BitVec.ofNat 16 (0x050 + 5 * digit)

/-- The three bytes LD B,VX stores from `I` upward (42_mem_transfer.md R126), in the order BCD_ORDER says (D15). -/
def bcdDigits (o : BcdOrder) (b : Byte) : List Byte :=
  let hundreds := BitVec.ofNat 8 (b.toNat / 100)
  let tens := BitVec.ofNat 8 (b.toNat / 10 % 10)
  let ones := BitVec.ofNat 8 (b.toNat % 10)
  match o with
  | .hundredsFirst => [hundreds, tens, ones]
  | .onesFirst => [ones, tens, hundreds]

/-- The origin column of a sprite, VX mod 64 (44_draw.md R160). -/
def originColumn (b : Byte) : Nat := b.toNat % 64

/-- The origin row of a sprite, VY mod 32 (44_draw.md R160). -/
def originRow (b : Byte) : Nat := b.toNat % 32

/-- `draw_rnd()`: a fresh free byte, one per call (00_scope.md R9, 60_exceptions.md R185, log entry 17). -/
def State.drawRnd (s : State) : Byte × State := (Config.rndByte s.draws, { s with draws := s.draws + 1 })

end Sys2Proof.Machine
end

