-- ==== Sys2Proof/Machine/Alu.lean ====
section
/-! DEFINITION. The arithmetic and logic family (40_alu.md R80 to R90). Operands are sampled before any write; results
wrap modulo 256 (R90); none of them can fault. -/

namespace Sys2Proof.Machine

/-- LD VX,VY (40_alu.md R81). -/
def execLdVxVy (x y : Reg) (s : State) : Result := .next (s.advance.setReg x (s.reg y))

/-- OR VX,VY: VF is not reset (40_alu.md R82). -/
def execOrVxVy (x y : Reg) (s : State) : Result := .next (s.advance.setReg x (s.reg x ||| s.reg y))

/-- AND VX,VY (40_alu.md R83). -/
def execAndVxVy (x y : Reg) (s : State) : Result := .next (s.advance.setReg x (s.reg x &&& s.reg y))

/-- XOR VX,VY (40_alu.md R84). -/
def execXorVxVy (x y : Reg) (s : State) : Result := .next (s.advance.setReg x (s.reg x ^^^ s.reg y))

/-- A flag-writing instruction's end: the result and the flag, both computed from the old operands (40_alu.md R80). -/
def State.finishAlu (s : State) (o : VfOrder) (x : Reg) (result flag : Byte) : Result :=
  .next (s.advance.setResultAndFlag o x result flag)

/-- ADD VX,VY under a configuration (40_alu.md R85). -/
def execAddVxVyUnder (c : Config) (x y : Reg) (s : State) : Result :=
  s.finishAlu c.vfOrder x (s.reg x + s.reg y) (carryFlag (s.reg x) (s.reg y))

/-- ADD VX,VY (40_alu.md R85). -/
def execAddVxVy (x y : Reg) (s : State) : Result := execAddVxVyUnder params x y s

/-- SUB VX,VY under a configuration (40_alu.md R86). -/
def execSubVxVyUnder (c : Config) (x y : Reg) (s : State) : Result :=
  s.finishAlu c.vfOrder x (s.reg x - s.reg y) (greaterFlag (s.reg x) (s.reg y))

/-- SUB VX,VY: VX minus VY (40_alu.md R86). -/
def execSubVxVy (x y : Reg) (s : State) : Result := execSubVxVyUnder params x y s

/-- SHR VX under a configuration (40_alu.md R87). -/
def execShrVxUnder (c : Config) (x : Reg) (s : State) : Result :=
  s.finishAlu c.vfOrder x (s.reg x >>> 1) (lowBitFlag (s.reg x))

/-- SHR VX: VX is shifted in place, VY is not read (40_alu.md R87). -/
def execShrVx (x : Reg) (s : State) : Result := execShrVxUnder params x s

/-- SUBN VX,VY under a configuration (40_alu.md R88). -/
def execSubnVxVyUnder (c : Config) (x y : Reg) (s : State) : Result :=
  s.finishAlu c.vfOrder x (s.reg y - s.reg x) (greaterFlag (s.reg y) (s.reg x))

/-- SUBN VX,VY: VY minus VX (40_alu.md R88; VF is 0 otherwise, 90_conflicts.md C10). -/
def execSubnVxVy (x y : Reg) (s : State) : Result := execSubnVxVyUnder params x y s

/-- SHL VX under a configuration (40_alu.md R89). -/
def execShlVxUnder (c : Config) (x : Reg) (s : State) : Result :=
  s.finishAlu c.vfOrder x (s.reg x <<< 1) (highBitFlag (s.reg x))

/-- SHL VX: VX is shifted in place, VY is not read (40_alu.md R89). -/
def execShlVx (x : Reg) (s : State) : Result := execShlVxUnder params x s

end Sys2Proof.Machine
end

