-- ==== Sys2Proof/Machine/ControlFlow.lean ====
section
/-! DEFINITION. The control-flow family (41_control_flow.md R100 to R110). No target is checked when the transfer
executes; a PC out of range faults at the fetch that uses it (60_exceptions.md R173). -/

namespace Sys2Proof.Machine

/-- CLS (41_control_flow.md R100). -/
def execCls (s : State) : Result := .next { s.advance with fb := Frame.clear }

/-- RET under a configuration (41_control_flow.md R101). -/
def execRetUnder (c : Config) (s : State) : Result := State.ret s s.advance c.oobPolicy

/-- RET (41_control_flow.md R101). -/
def execRet (s : State) : Result := execRetUnder params s

/-- JP NNN (41_control_flow.md R102). -/
def execJpNnn (nnn : Addr12) (s : State) : Result := .next (s.advance.setPc (addressOf nnn))

/-- CALL NNN under a configuration (41_control_flow.md R103). -/
def execCallNnnUnder (c : Config) (nnn : Addr12) (s : State) : Result :=
  State.call s s.advance c.oobPolicy (addressOf nnn)

/-- CALL NNN (41_control_flow.md R103). -/
def execCallNnn (nnn : Addr12) (s : State) : Result := execCallNnnUnder params nnn s

/-- JP V0,NNN: the sum is kept whole (41_control_flow.md R104, D24). -/
def execJpV0Nnn (nnn : Addr12) (s : State) : Result :=
  .next (s.advance.setPc (widen (s.reg 0) + addressOf nnn))

/-- SE VX,KK (41_control_flow.md R106). -/
def execSeVxKk (x : Reg) (kk : Byte) (s : State) : Result := .next (s.advance.skipIf (s.reg x == kk))

/-- SNE VX,KK (41_control_flow.md R107). -/
def execSneVxKk (x : Reg) (kk : Byte) (s : State) : Result := .next (s.advance.skipIf (s.reg x != kk))

/-- SE VX,VY (41_control_flow.md R108). -/
def execSeVxVy (x y : Reg) (s : State) : Result := .next (s.advance.skipIf (s.reg x == s.reg y))

/-- SNE VX,VY (41_control_flow.md R109). -/
def execSneVxVy (x y : Reg) (s : State) : Result := .next (s.advance.skipIf (s.reg x != s.reg y))

end Sys2Proof.Machine
end

