-- ==== Sys2Proof/Machine/Draw.lean ====
section
/-! DEFINITION. The draw-sprite instruction (44_draw.md R160 to R164). -/

namespace Sys2Proof.Machine

/-- Whether column `c` of a row byte is set: bit 7 is the leftmost column (44_draw.md R161, D10, log entry 12). -/
def spriteBit (b : Byte) (c : Nat) : Bool := b.getLsbD (7 - c)

/-- The cell of the pixel at a column and row that may lie past an edge, or no cell (44_draw.md R162). DESIGN CHOICE: the
literal linear index, dropped at 2048 and above (DRAW_OOB, D8, log entry 11). -/
def pixelCell (o : DrawOob) (col row : Nat) : Option Nat :=
  match o with
  | .literal => if row * 64 + col < 2048 then some (row * 64 + col) else none
  | .wrap => some (row % 32 * 64 + col % 64)
  | .clip => if col < 64 ∧ row < 32 then some (row * 64 + col) else none

/-- The cells one sprite row toggles, left to right (44_draw.md R160). -/
def rowCells (o : DrawOob) (ox row : Nat) (b : Byte) : List Nat :=
  (List.range 8).filterMap (fun c => if spriteBit b c then pixelCell o (ox + c) row else none)

/-- The cells a sprite toggles, top to bottom (44_draw.md R160). -/
def spriteCells (o : DrawOob) (ox : Nat) : Nat → List Byte → List Nat
  | _, [] => []
  | row, b :: bs => rowCells o ox row b ++ spriteCells o ox (row + 1) bs

/-- Toggle the cells one by one; the flag says whether one of them was on (44_draw.md R160). -/
def Frame.draw : Frame → List Nat → Frame × Bool
  | f, [] => (f, false)
  | f, n :: ns =>
    let rest := Frame.draw (f.toggle n) ns
    (rest.1, f.cell n || rest.2)

/-- The cells DRW VX,VY,N toggles from a state: the origin is sampled before VF is reset (44_draw.md R160, R163, D29). -/
def State.drawCells (s : State) (o : DrawOob) (x y : Reg) (n : Nibble) : List Nat :=
  spriteCells o (originColumn (s.reg x)) (originRow (s.reg y)) (s.mem.readBytes s.i.toNat n.toNat)

/-- DRW VX,VY,N under a configuration (44_draw.md R160). -/
def execDrwVxVyNUnder (c : Config) (x y : Reg) (n : Nibble) (s : State) : Result :=
  let drawn := s.fb.draw (s.drawCells c.drawOob x y n)
  s.access c.oobPolicy n.toNat ({ s.advance with fb := drawn.1 }.setReg vf (flagByte drawn.2))

/-- DRW VX,VY,N: N = 0 draws nothing and clears VF (44_draw.md R160, R164). -/
def execDrwVxVyN (x y : Reg) (n : Nibble) (s : State) : Result := execDrwVxVyNUnder params x y n s

end Sys2Proof.Machine
end

