-- ==== Sys2Proof/Machine/MemTransfer.lean ====
section
/-! DEFINITION. The memory and register transfer family (42_mem_transfer.md R120 to R129). None writes VF as a flag; no
load or store changes I; the bounds are checked once, before any transfer (20_memory.md R45). -/

namespace Sys2Proof.Machine

/-- LD VX,KK (42_mem_transfer.md R120). -/
def execLdVxKk (x : Reg) (kk : Byte) (s : State) : Result := .next (s.advance.setReg x kk)

/-- ADD VX,KK: wraps, no flag (42_mem_transfer.md R121). -/
def execAddVxKk (x : Reg) (kk : Byte) (s : State) : Result := .next (s.advance.setReg x (s.reg x + kk))

/-- LD I,NNN (42_mem_transfer.md R122). -/
def execLdINnn (nnn : Addr12) (s : State) : Result := .next (s.advance.setI (addressOf nnn))

/-- ADD I,VX: 16 bits, wraps, no flag (42_mem_transfer.md R123, D25). -/
def execAddIVx (x : Reg) (s : State) : Result := .next (s.advance.setI (s.i + widen (s.reg x)))

/-- LD F,VX under a configuration (42_mem_transfer.md R128). -/
def execLdFVxUnder (c : Config) (x : Reg) (s : State) : Result :=
  .next (s.advance.setI (glyphAddress c.fontIndexMask (s.reg x)))

/-- LD F,VX (42_mem_transfer.md R128). -/
def execLdFVx (x : Reg) (s : State) : Result := execLdFVxUnder params x s

/-- LD [I],VX under a configuration (42_mem_transfer.md R124). -/
def execLdMemVxUnder (c : Config) (x : Reg) (s : State) : Result :=
  s.access c.oobPolicy x.val (s.advance.storeAtI (s.regsBelow x))

/-- LD [I],VX: X bytes, V0 to V(X-1) (42_mem_transfer.md R124). -/
def execLdMemVx (x : Reg) (s : State) : Result := execLdMemVxUnder params x s

/-- LD VX,[I] under a configuration (42_mem_transfer.md R125). -/
def execLdVxMemUnder (c : Config) (x : Reg) (s : State) : Result :=
  s.access c.oobPolicy x.val { s.advance with v := s.loadBelow x }

/-- LD VX,[I]: X bytes, into V0 to V(X-1) (42_mem_transfer.md R125). -/
def execLdVxMem (x : Reg) (s : State) : Result := execLdVxMemUnder params x s

/-- LD B,VX under a configuration (42_mem_transfer.md R126). -/
def execLdBVxUnder (c : Config) (x : Reg) (s : State) : Result :=
  s.access c.oobPolicy 3 (s.advance.storeAtI (bcdDigits c.bcdOrder (s.reg x)))

/-- LD B,VX (42_mem_transfer.md R126). -/
def execLdBVx (x : Reg) (s : State) : Result := execLdBVxUnder params x s

/-- RND VX,KK: one byte is drawn, whatever KK is (42_mem_transfer.md R127). -/
def execRndVxKk (x : Reg) (kk : Byte) (s : State) : Result :=
  .next (s.advance.drawRnd.2.setReg x (s.drawRnd.1 &&& kk))

end Sys2Proof.Machine
end

