-- ==== Sys2Proof/Machine/TimerPeripheral.lean ====
section
/-! DEFINITION. The timer and peripheral family (43_timer_peripheral.md R140 to R146). The countdown is the cycle's, not
theirs (60_exceptions.md R180). None can fault. -/

namespace Sys2Proof.Machine

/-- LD VX,DT (43_timer_peripheral.md R140). -/
def execLdVxDt (x : Reg) (s : State) : Result := .next (s.advance.setReg x s.dt)

/-- LD DT,VX (43_timer_peripheral.md R141). -/
def execLdDtVx (x : Reg) (s : State) : Result := .next (s.advance.setDt (s.reg x))

/-- LD ST,VX (43_timer_peripheral.md R142). -/
def execLdStVx (x : Reg) (s : State) : Result := .next (s.advance.setSt (s.reg x))

/-- SKP VX (43_timer_peripheral.md R144). -/
def execSkpVx (x : Reg) (s : State) : Result := .next (s.advance.skipIf (s.pressed (s.reg x)))

/-- SKNP VX (43_timer_peripheral.md R145). -/
def execSknpVx (x : Reg) (s : State) : Result := .next (s.advance.skipIf (!s.pressed (s.reg x)))

/-- LD VX,K: the least pressed key, or the same instruction again next cycle (43_timer_peripheral.md R146). -/
def execLdVxK (x : Reg) (s : State) : Result :=
  match s.firstKey with
  | some k => .next (s.advance.setReg x (BitVec.ofNat 8 k.val))
  | none => .next s.advance.rewind

end Sys2Proof.Machine
end

