-- ==== Sys2Proof/Machine/Step.lean ====
section
/-! DEFINITION. One step: one invocation of "advance one cycle" (30_encoding.md R60). -/

namespace Sys2Proof.Machine

/-- `Execute(op)`: exactly one routine, or none (30_encoding.md R60, R66, R69). -/
def execute (w : Word) (s : State) : Result :=
  match decode w with
  | .instr i => exec i s
  | .rejected _ => noOp s

/-- `Cycle()` (30_encoding.md R60) under the spec's value of every parameter. -/
def step (s : State) : Host.Outcome State Fault Refusal := cycleOf params execute s

/-- `s` with the opcode `w` (numbered as spec/opcode_table.json numbers it) where the next fetch reads it: the load of a
program by the host (70_reset_and_hazards.md R201, log entry 19). -/
def State.withFetchWord (s : State) (nbits w : Nat) : State := s.placeAtPc (BitVec.ofNat 16 (w % 2 ^ nbits))

end Sys2Proof.Machine
end

