-- ==== Sys2Proof/Machine/Boundary.lean ====
section
/-! DEFINITION. The host boundary (60_exceptions.md R186, R188; 70_reset_and_hazards.md R201): what the host does between
cycles, and what it reads. No step performs these moves; a host takes them between two steps (log entry 18). -/

namespace Sys2Proof.Machine

/-- Reset by the host, at any time (60_exceptions.md R186). The model's own count of draws goes on, so that the bytes drawn
after a reset are fresh (log entry 17). -/
def State.hostReset (s : State) : State := { State.reset with draws := s.draws }

/-- Program load, after reset and before the first cycle: the image verbatim from 0x200; an image of more than 3584 bytes
is refused by the loader (70_reset_and_hazards.md R201, D26). -/
def State.loadProgram (s : State) (image : List Byte) : Option State :=
  if imageFits image then some { s with mem := s.mem.writeBytes 0x200 image } else none

/-- Key set or clear, between cycles (60_exceptions.md R182). -/
def State.setKey (s : State) (k : Fin 16) (down : Bool) : State := { s with key := s.key.set k down }

/-- The framebuffer read port: the pixel at column `x` and row `y` (60_exceptions.md R183, R188). -/
def State.pixel (s : State) (x : Fin 64) (y : Fin 32) : Bool := s.fb.cell (y.val * 64 + x.val)

/-- The sound timer read port (60_exceptions.md R181, R188). -/
def State.soundTimer (s : State) : Byte := s.st

/-- The fault read port: the three fields of FAULT as the host sees them (60_exceptions.md R188). -/
def State.faultPort (s : State) : BitVec 3 × Word × BitVec 17 := (causeCode s.fault.cause, s.fault.epc, s.fault.info)

end Sys2Proof.Machine
end

