-- ==== Sys2Proof/Machine/Under.lean ====
section
/-! DEFINITION. The machine under any configuration (00_scope.md R4: a parameter fixed by a decision is a configuration
field, "so that a claim can quantify over it"): the meanings, the cycle and the reset state with the parameters as an
argument. Under `params` they are `exec`, `step` and `State.reset` (Sys2Proof/Laws/Under.lean). -/

namespace Sys2Proof.Machine

/-- The meaning of an instruction under a configuration: `exec`, where the twelve instructions that a parameter governs
take it from `c`. -/
def execUnder (c : Config) (i : Instr) (s : State) : Result :=
  match i with
  | .ret => execRetUnder c s
  | .callNnn nnn => execCallNnnUnder c nnn s
  | .addVxVy x y => execAddVxVyUnder c x y s
  | .subVxVy x y => execSubVxVyUnder c x y s
  | .shrVx x => execShrVxUnder c x s
  | .subnVxVy x y => execSubnVxVyUnder c x y s
  | .shlVx x => execShlVxUnder c x s
  | .drwVxVyN x y n => execDrwVxVyNUnder c x y n s
  | .ldFVx x => execLdFVxUnder c x s
  | .ldBVx x => execLdBVxUnder c x s
  | .ldMemVx x => execLdMemVxUnder c x s
  | .ldVxMem x => execLdVxMemUnder c x s
  | .cls => execCls s
  | .jpNnn nnn => execJpNnn nnn s
  | .jpV0Nnn nnn => execJpV0Nnn nnn s
  | .seVxKk x kk => execSeVxKk x kk s
  | .sneVxKk x kk => execSneVxKk x kk s
  | .seVxVy x y => execSeVxVy x y s
  | .sneVxVy x y => execSneVxVy x y s
  | .ldVxKk x kk => execLdVxKk x kk s
  | .addVxKk x kk => execAddVxKk x kk s
  | .ldVxVy x y => execLdVxVy x y s
  | .orVxVy x y => execOrVxVy x y s
  | .andVxVy x y => execAndVxVy x y s
  | .xorVxVy x y => execXorVxVy x y s
  | .ldINnn nnn => execLdINnn nnn s
  | .addIVx x => execAddIVx x s
  | .rndVxKk x kk => execRndVxKk x kk s
  | .skpVx x => execSkpVx x s
  | .sknpVx x => execSknpVx x s
  | .ldVxDt x => execLdVxDt x s
  | .ldVxK x => execLdVxK x s
  | .ldDtVx x => execLdDtVx x s
  | .ldStVx x => execLdStVx x s

/-- `Execute(op)` under a configuration (30_encoding.md R60, R66, R69). -/
def executeUnder (c : Config) (w : Word) (s : State) : Result :=
  match decodeWith c.selWidth w with
  | .instr i => execUnder c i s
  | .rejected _ => noOp s

/-- `Cycle()` under a configuration (30_encoding.md R60). -/
def stepUnder (c : Config) (s : State) : Result := cycleOf c (executeUnder c) s

/-- The state after reset under a configuration: FONT in memory, RESET_ZERO in the rest (10_state.md R30, R31). -/
def State.resetUnder (c : Config) : State := State.resetWith c.resetFill (Memory.resetUnder c)

end Sys2Proof.Machine
end

