-- ==== Sys2Proof/Safety.lean ====
section
/-! DEFINITION. What counts as a safe run, the invariant of every cycle, what an instruction may write and access, and the
end of a run, in the terms claims use. -/

namespace Sys2Proof.Machine

/-- The FAULT register agrees with the rest of the state: no fault leaves it zero (10_state.md R30), a fault has recorded
the PC that still stands and the information of its cause (60_exceptions.md R171, R172). -/
def State.faultAgrees (s : State) : Prop :=
  match s.fault.cause with
  | .noFault => s.fault.epc = 0 ∧ s.fault.info = 0
  | .fetchOob => s.fault.epc = s.pc ∧ 0xFFE < s.pc.toNat ∧ s.fault.info.toNat = s.pc.toNat
  | .stackOverflow => s.fault.epc = s.pc ∧ s.sp = 16 ∧ s.fault.info = 16
  | .stackUnderflow => s.fault.epc = s.pc ∧ s.sp = 0 ∧ s.fault.info = 0
  | .memOob => s.fault.epc = s.pc ∧ 0xFFF < s.fault.info.toNat ∧ s.fault.info.toNat ≤ 0x1000D

/-- The invariant of the machine: memory is canonical; PC is at most 0x10FE, the largest value an instruction can give
it (10_state.md R14); every return address on the stack is at most 0x1000 (41_control_flow.md R101); FAULT agrees with
the state. SP is at most 16 by its type. -/
def State.Inv (s : State) : Prop :=
  s.mem.wf ∧ s.pc.toNat ≤ 0x10FE ∧ (∀ k : Fin 16, s.stack[k].toNat ≤ 0x1000) ∧ s.faultAgrees

/-- The registers an instruction may write, beyond which it leaves V alone: the "writes" column of 10_state.md R25, with
V15 for the six instructions that write VF as a flag (R11). -/
def writesReg (i : Instr) (r : Reg) : Bool :=
  match i with
  | .cls | .ret | .jpNnn _ | .callNnn _ | .jpV0Nnn _ | .seVxKk _ _ | .sneVxKk _ _ | .seVxVy _ _ | .sneVxVy _ _ => false
  | .ldVxKk x _ | .addVxKk x _ | .rndVxKk x _ | .ldVxVy x _ | .orVxVy x _ | .andVxVy x _ | .xorVxVy x _ => r == x
  | .addVxVy x _ | .subVxVy x _ | .subnVxVy x _ | .shrVx x | .shlVx x => r == x || r == vf
  | .drwVxVyN _ _ _ => r == vf
  | .ldVxDt x | .ldVxK x => r == x
  | .ldVxMem x => r < x
  | .ldINnn _ | .addIVx _ | .ldFVx _ | .ldBVx _ | .ldMemVx _ | .skpVx _ | .sknpVx _ | .ldDtVx _ | .ldStVx _ => false

/-- The bytes of memory an instruction accesses from `I` upward, other than its own fetch (20_memory.md R43). -/
def dataBytes : Instr → Nat
  | .ldMemVx x | .ldVxMem x => x.val
  | .ldBVx _ => 3
  | .drwVxVyN _ _ n => n.toNat
  | .cls | .ret | .jpNnn _ | .callNnn _ | .jpV0Nnn _ | .seVxKk _ _ | .sneVxKk _ _ | .seVxVy _ _ | .sneVxVy _ _ => 0
  | .ldVxKk _ _ | .addVxKk _ _ | .rndVxKk _ _ | .ldVxVy _ _ | .orVxVy _ _ | .andVxVy _ _ | .xorVxVy _ _ => 0
  | .addVxVy _ _ | .subVxVy _ _ | .subnVxVy _ _ | .shrVx _ | .shlVx _ => 0
  | .ldINnn _ | .addIVx _ | .ldFVx _ | .skpVx _ | .sknpVx _ | .ldVxDt _ | .ldVxK _ | .ldDtVx _ | .ldStVx _ => 0

/-- A pixel of a sprite of `n` rows at `I` with origin column `ox` and row `oy` that is set and whose cell is number `c`:
row `r`, column `k`, bit `7 - k` of the row's byte (44_draw.md R160 to R162). -/
def spriteCovers (s : State) (ox oy n c : Nat) : Prop :=
  ∃ r < n, ∃ k < 8, (s.mem.read (s.i.toNat + r)).getLsbD (7 - k) = true ∧ c = (oy + r) * 64 + (ox + k)

/-- A run of `n` cycles is safe when no cycle leaves the core halted: a faulted state is never a final state of a run
(60_exceptions.md R172). -/
def safeFor : Nat → State → Bool
  | 0, s => !s.halted
  | n + 1, s =>
    !s.halted &&
      match step s with
      | .next t => safeFor n t
      | .fault _ => false
      | .refused _ => false

/-- A boundary at which a run can be over, by the spec's convention: the core is not halted and the next instruction is a jump to itself
(70_reset_and_hazards.md R206, D21, log entry 29). It holds at every later boundary too; `stateAtEnd` takes the first. -/
def atEndOfRun (s : State) : Bool :=
  !s.halted && s.fetchable && decode s.fetch == .instr (.jpNnn (s.pc.setWidth 12))

/-- The state "at the end" of a run from `s` (70_reset_and_hazards.md R206, D21, log entry 29): that of the FIRST boundary
at which the next instruction is a jump to itself, or that after `limit` cycles, the number the host fixed in advance, where
no such boundary comes before. A run that faults has no end. -/
def stateAtEnd : Nat → State → Option State
  | 0, s => if s.halted then none else some s
  | limit + 1, s =>
    if s.halted then none
    else if atEndOfRun s then some s
    else
      match step s with
      | .next t => stateAtEnd limit t
      | .fault _ => none
      | .refused _ => none

end Sys2Proof.Machine
end

