-- ==== Sys2Proof/Certificates/Slice0/Obligations.lean ====
section
/-! DEFINITION. The statements for the provers, from the numbered rules of spec/. A statement about an instruction gives
its whole next state: `t = { s with … }` says that every field it does not list, memory included, is as before. -/

open Sys2Proof Sys2Proof.Machine

/-! ## Encoding -/

/-- 30_encoding.md section 4, R68. Rests on the opcode patterns the spec supplies (D1, log entry 1). -/
def Obligations.DecodeOfEncodeIsTheInstruction : Prop :=
  ∀ i : Instr, decode (encode i) = .instr i

/-- 30_encoding.md R66 to R70: the words of an instruction are its encoding with anything in the ignored bits. Rests on
D1, D2 and D28 (log entries 1, 2, 3). -/
def Obligations.DecodedWordsAreTheEncodingsUpToIgnoredBits : Prop :=
  ∀ (w : Word) (i : Instr), decode w = .instr i ↔ w &&& ~~~ (ignoredBits i) = encode i

/-- 30_encoding.md R69: the no-op words, family by family. Rests on D1 and D2 (log entries 1, 2). -/
def Obligations.NoOpWordsAreTheUnmatchedSelectors : Prop :=
  ∀ (w : Word) (e : DecodeError), decode w = .rejected e ↔
    e = .unmatchedSelector (fieldOp w) ∧
      (fieldOp w = 0x0 ∧ fieldKk w ∉ [0xE0, 0xEE] ∨
       fieldOp w = 0x8 ∧ fieldN w ∈ [0x8, 0x9, 0xA, 0xB, 0xC, 0xD, 0xF] ∨
       fieldOp w = 0xE ∧ fieldKk w ∉ [0x9E, 0xA1] ∨
       fieldOp w = 0xF ∧ fieldKk w ∉ [0x07, 0x0A, 0x15, 0x18, 0x1E, 0x29, 0x33, 0x55, 0x65])

/-- The words that 95_test_vectors.md writes out, one or more of each family, decode to what they stand for. -/
def Obligations.WordsOfTheSpecDecode : Prop :=
  decode 0x2300 = .instr (.callNnn 0x300) ∧ decode 0x00EE = .instr .ret ∧
  decode 0x3A05 = .instr (.seVxKk 0xA 0x05) ∧ decode 0xD015 = .instr (.drwVxVyN 0 1 5) ∧
  decode 0xF30A = .instr (.ldVxK 3) ∧ decode 0x8124 = .instr (.addVxVy 1 2) ∧
  decode 0x85A6 = .instr (.shrVx 5) ∧ decode 0xF355 = .instr (.ldMemVx 3) ∧
  decode 0xE2A1 = .instr (.sknpVx 2) ∧ decode 0x03E0 = .instr .cls ∧
  decode 0x812F = .rejected (.unmatchedSelector 8) ∧ decode 0x00F0 = .rejected (.unmatchedSelector 0)

/-- 30_encoding.md R62. -/
def Obligations.EveryInstructionIsTwoBytes : Prop :=
  (∀ (hi lo : Byte) (rest : List Byte), decodeBytes (hi :: lo :: rest) = (decode (opcodeOf hi lo), rest)) ∧
  (∀ b : Byte, decodeBytes [b] = (.rejected .truncated, [b])) ∧
  decodeBytes [] = (.rejected .truncated, []) ∧
  ∀ i : Instr, (opcodeBytes (encode i)).length = 2

/-- 30_encoding.md R63: the fields by their bits. -/
def Obligations.FieldsAreTheBitsTheSpecNames : Prop :=
  ∀ op x y n : Nibble,
    fieldOp (op ++ x ++ y ++ n) = op ∧ (fieldX (op ++ x ++ y ++ n)).val = x.toNat ∧
    (fieldY (op ++ x ++ y ++ n)).val = y.toNat ∧ fieldN (op ++ x ++ y ++ n) = n ∧
    fieldKk (op ++ x ++ y ++ n) = y ++ n ∧ fieldNnn (op ++ x ++ y ++ n) = x ++ y ++ n

/-- 30_encoding.md R72: the assembler gives every instruction's line its own word, and a line assembles exactly when it
is well formed. The mnemonics are the spec's own (D3, log entry 25). -/
def Obligations.AssemblerAgreesWithEncoder : Prop :=
  (∀ i : Instr, assemble (listing i) = some (opcodeBytes (encode i))) ∧
  ∀ l : AsmLine, (assemble l).isSome = l.wellFormed

/-! ## The cycle -/

/-- 30_encoding.md R60, R61. The tick after the instruction is the spec's choice (D13, log entry 15). -/
def Obligations.StepRunsTheDecodedInstruction : Prop :=
  ∀ (s : State) (i : Instr), s.halted = false → s.pc.toNat ≤ 0xFFE →
    decode (s.mem.read s.pc.toNat ++ s.mem.read (s.pc.toNat + 1)) = .instr i →
    step s =
      match exec i s with
      | .next t => .next (if t.halted then t else { t with dt := tickDown t.dt, st := tickDown t.st })
      | .fault r => .fault r
      | .refused r => .refused r

/-- 30_encoding.md R69, R60. Rests on D13 (log entry 15). -/
def Obligations.NoOpWordOnlyAdvancesPcAndTicks : Prop :=
  ∀ (s : State) (e : DecodeError), s.halted = false → s.pc.toNat ≤ 0xFFE →
    decode (s.mem.read s.pc.toNat ++ s.mem.read (s.pc.toNat + 1)) = .rejected e →
    step s = .next { s with pc := s.pc + 2, dt := tickDown s.dt, st := tickDown s.st }

/-- 30_encoding.md R60, 60_exceptions.md R172 (d). The halt is the spec's policy (D4, log entry 5). -/
def Obligations.HaltedCoreNeverChanges : Prop :=
  ∀ (s : State) (n : Nat), s.halted = true → core.run n s = .next s

/-- 60_exceptions.md R173. The spec's policy (D5, log entry 6). -/
def Obligations.FetchPastTheEndFaults : Prop :=
  ∀ s : State, s.halted = false → 0xFFE < s.pc.toNat →
    step s = .next { s with fault := { cause := .fetchOob, epc := s.pc, info := BitVec.ofNat 17 s.pc.toNat } }

/-- 30_encoding.md R61. -/
def Obligations.FetchIsBigEndian : Prop :=
  ∀ s : State, s.pc.toNat ≤ 0xFFE →
    s.fetch = s.mem.read s.pc.toNat ++ s.mem.read (s.pc.toNat + 1) ∧
    s.fetch.toNat = 256 * (s.mem.read s.pc.toNat).toNat + (s.mem.read (s.pc.toNat + 1)).toNat ∧
    s.fetch.extractLsb' 8 8 = s.mem.read s.pc.toNat ∧ s.fetch.extractLsb' 0 8 = s.mem.read (s.pc.toNat + 1) ∧
    ∀ (e : DecodeError) (t : State), decode s.fetch = .rejected e → step s = .next t → t.mem = s.mem

/-- 30_encoding.md R69 ("Every 16-bit word is accepted"), 60_exceptions.md R170 to R172. That a fault is a next state is
the model's reading of R172 (log entry 5). -/
def Obligations.EveryCycleEndsInAState : Prop :=
  (∀ (i : Instr) (s : State), ∃ t, exec i s = .next t) ∧ ∀ s : State, ∃ t, step s = .next t

/-- 60_exceptions.md R172. The fault mechanism is the spec's policy (D4, log entry 5). -/
def Obligations.FaultingCyclesArePrecise : Prop :=
  ∀ s t : State, s.halted = false → step s = .next t → t.halted = true →
    t = { s with fault := t.fault } ∧ t.fault.epc = s.pc ∧ step t = .next t

/-- 60_exceptions.md R171, R179. The policy is the spec's (D4 to D7, log entries 5 to 8). -/
def Obligations.FaultsArePreciselyTheFourConditions : Prop :=
  ∀ s t : State, s.halted = false → step s = .next t →
    (t.fault.cause = .fetchOob ↔ 0xFFE < s.pc.toNat) ∧
    (t.fault.cause = .stackOverflow ↔
      s.pc.toNat ≤ 0xFFE ∧ s.sp = 16 ∧ ∃ nnn, decode s.fetch = .instr (.callNnn nnn)) ∧
    (t.fault.cause = .stackUnderflow ↔ s.pc.toNat ≤ 0xFFE ∧ s.sp = 0 ∧ decode s.fetch = .instr .ret) ∧
    (t.fault.cause = .memOob ↔
      s.pc.toNat ≤ 0xFFE ∧
        ∃ i, decode s.fetch = .instr i ∧ 0 < dataBytes i ∧ 0xFFF < s.i.toNat + dataBytes i - 1)

/-- 60_exceptions.md R174, R175, R176 with 20_memory.md R45: what each faulting form records. The policy is the spec's
(D6, D7, log entries 7, 8). -/
def Obligations.FaultEntriesRecordCauseEpcAndInfo : Prop :=
  (∀ (nnn : Addr12) (s : State), s.sp = 16 →
    exec (.callNnn nnn) s = .next { s with fault := { cause := .stackOverflow, epc := s.pc, info := 16 } }) ∧
  (∀ s : State, s.sp = 0 →
    exec .ret s = .next { s with fault := { cause := .stackUnderflow, epc := s.pc, info := 0 } }) ∧
  ∀ (i : Instr) (s : State), 0 < dataBytes i → 0xFFF < s.i.toNat + dataBytes i - 1 →
    exec i s = .next { s with fault :=
      { cause := .memOob, epc := s.pc, info := BitVec.ofNat 17 (s.i.toNat + dataBytes i - 1) } }

/-- 60_exceptions.md R180, 43_timer_peripheral.md R141, R142: natural subtraction stops at 0. The phase is the spec's
choice (D13, log entry 15). -/
def Obligations.TimersCountDownOncePerCycle : Prop :=
  ∀ s t : State, s.halted = false → step s = .next t → t.halted = false →
    t.dt.toNat = (match decode s.fetch with
      | .instr (.ldDtVx x) => (s.reg x).toNat
      | _ => s.dt.toNat) - 1 ∧
    t.st.toNat = (match decode s.fetch with
      | .instr (.ldStVx x) => (s.reg x).toNat
      | _ => s.st.toNat) - 1

/-! ## Who writes what (10_state.md R25) -/

/-- 10_state.md R19, 60_exceptions.md R182. -/
def Obligations.NoCycleWritesTheKeypad : Prop :=
  ∀ s t : State, step s = .next t → t.key = s.key

/-- 10_state.md R10, R11, R25: a register changes only where the instruction names it or writes VF as a flag. -/
def Obligations.RegistersChangeOnlyWhereTheInstructionWrites : Prop :=
  ∀ (s t : State) (r : Reg), step s = .next t → t.reg r ≠ s.reg r →
    ∃ i, decode s.fetch = .instr i ∧ writesReg i r = true

/-- 10_state.md R12, R25. -/
def Obligations.IndexRegisterHasThreeWriters : Prop :=
  ∀ s t : State, step s = .next t → t.i ≠ s.i →
    (∃ nnn, decode s.fetch = .instr (.ldINnn nnn)) ∨ (∃ x, decode s.fetch = .instr (.addIVx x)) ∨
      ∃ x, decode s.fetch = .instr (.ldFVx x)

/-- 10_state.md R15, R16, R25: the stack is reached by CALL and RET alone; CALL writes the slot SP names and no other,
RET writes no slot. -/
def Obligations.StackIsReachedByCallAndRetAlone : Prop :=
  ∀ s t : State, step s = .next t →
    (t.stack ≠ s.stack → (∃ nnn, decode s.fetch = .instr (.callNnn nnn)) ∧ t.sp.val = s.sp.val + 1 ∧
      ∀ k : Fin 16, k.val ≠ s.sp.val → t.stack[k] = s.stack[k]) ∧
    (t.sp ≠ s.sp → (∃ nnn, decode s.fetch = .instr (.callNnn nnn)) ∧ t.sp.val = s.sp.val + 1 ∨
      decode s.fetch = .instr .ret ∧ t.sp.val + 1 = s.sp.val)

/-- 10_state.md R20, R25. -/
def Obligations.FramebufferHasTwoWriters : Prop :=
  ∀ s t : State, step s = .next t → t.fb ≠ s.fb →
    decode s.fetch = .instr .cls ∨ ∃ x y n, decode s.fetch = .instr (.drwVxVyN x y n)

/-- 20_memory.md R43, 10_state.md R25: a byte of memory changes only under LD [I],VX and LD B,VX, and only among the bytes
they store from `I` upward. -/
def Obligations.MemoryHasTwoWriters : Prop :=
  ∀ (s t : State) (a : Nat), step s = .next t → t.mem.read a ≠ s.mem.read a →
    ∃ i, decode s.fetch = .instr i ∧ ((∃ x, i = .ldMemVx x) ∨ ∃ x, i = .ldBVx x) ∧
      s.i.toNat ≤ a ∧ a < s.i.toNat + dataBytes i

/-- 60_exceptions.md R185: one byte is drawn for each RND executed, none otherwise. The count is the model's own (log
entry 17). -/
def Obligations.OneRandomByteIsDrawnForEachRnd : Prop :=
  ∀ s t : State, s.halted = false → s.pc.toNat ≤ 0xFFE → step s = .next t →
    t.draws = s.draws + (match decode s.fetch with
      | .instr (.rndVxKk _ _) => 1
      | _ => 0)

/-! ## Invariants, reset, memory, the host -/

/-- 10_state.md R14, R22, R30; 41_control_flow.md R101; 60_exceptions.md R171, R172: see `State.Inv`. -/
def Obligations.EveryCycleKeepsTheInvariant : Prop :=
  ∀ s t : State, s.Inv → step s = .next t → t.Inv

/-- The reset state meets the invariant: by PC's value and the empty stack; by the zero that RESET_ZERO puts in every stack
slot (D12, log entry 14), the zero FAULT (D4, log entry 5) and the empty list of changed bytes, the model's representation
(log entry 31). -/
def Obligations.ResetMeetsTheInvariant : Prop := State.reset.Inv

/-- 10_state.md R30, R31. PC and the font's place are the source's; SP and FB are implied by it; every zero below is the
spec's decision D12 (log entry 14) and the glyph bytes are D11 (log entry 13). -/
def Obligations.ResetLeavesTheStateOfTheSpec : Prop :=
  State.reset.pc = 0x200 ∧ State.reset.sp = 0 ∧ (∀ n, State.reset.fb.cell n = false) ∧
  (∀ r : Reg, State.reset.reg r = 0) ∧ State.reset.i = 0 ∧ State.reset.dt = 0 ∧ State.reset.st = 0 ∧
  (∀ k : Fin 16, State.reset.stack[k] = 0) ∧ (∀ k : Fin 16, State.reset.key[k] = false) ∧
  State.reset.fault = { cause := .noFault, epc := 0, info := 0 } ∧
  (∀ a, a < 0x050 ∨ 0x0A0 ≤ a → State.reset.mem.read a = 0) ∧
  State.reset.mem.readBytes 0x050 80 =
    [0xF0, 0x90, 0x90, 0x90, 0xF0, 0x20, 0x60, 0x20, 0x20, 0x70, 0xF0, 0x10, 0xF0, 0x80, 0xF0, 0xF0, 0x10, 0xF0, 0x10,
     0xF0, 0x90, 0x90, 0xF0, 0x10, 0x10, 0xF0, 0x80, 0xF0, 0x10, 0xF0, 0xF0, 0x80, 0xF0, 0x90, 0xF0, 0xF0, 0x10, 0x20,
     0x40, 0x40, 0xF0, 0x90, 0xF0, 0x90, 0xF0, 0xF0, 0x90, 0xF0, 0x10, 0xF0, 0xF0, 0x90, 0xF0, 0x90, 0x90, 0xE0, 0x90,
     0xE0, 0x90, 0xE0, 0xF0, 0x80, 0x80, 0x80, 0xF0, 0xE0, 0x90, 0x90, 0x90, 0xE0, 0xF0, 0x80, 0xF0, 0x80, 0xF0, 0xF0,
     0x80, 0xF0, 0x80, 0x80]

/-- 20_memory.md section 1 (R40): a write sets its byte and changes no other, at every address of the one array of 4096
bytes; the fetch reads it, and so does LD VX,[I] with X = 1. That the list stays canonical (`Memory.wf`) and names only
addresses below 4096 is the model's representation (log entry 31), not R40's. -/
def Obligations.MemWriteSetsOneByte : Prop :=
  ∀ (m : Memory) (a : Nat) (v : Byte), m.wf → a ≤ 0xFFF →
    (∀ b, (m.write a v).read b = if b = a then v else m.read b) ∧ (m.write a v).wf ∧
    (∀ c ∈ m.write a v, c.1 < 4096) ∧
    (∀ s : State, s.pc.toNat = a → a ≤ 0xFFE →
      ({ s with mem := m.write a v } : State).fetch = v ++ m.read (a + 1)) ∧
    ∀ s : State, s.i.toNat = a → ∃ t, exec (.ldVxMem 1) { s with mem := m.write a v } = .next t ∧ t.reg 0 = v

/-- Two canonical memories that read alike are the same data (the model's representation of 20_memory.md R40). -/
def Obligations.CanonicalMemoriesThatReadAlikeAreEqual : Prop :=
  ∀ m k : Memory, m.wf → k.wf → (∀ a, m.read a = k.read a) → m = k

/-- 20_memory.md R41, R49: a word placed at PC is what the next fetch reads, and nothing but those two bytes of memory
changes. `withFetchWord`, which places it, is the model's own stand-in for the host's load of a program (log entry 19), and
`Memory.wf` its representation (log entry 31). -/
def Obligations.PlacedWordIsFetched : Prop :=
  ∀ (s : State) (w : Word), s.mem.wf → s.pc.toNat ≤ 0xFFE →
    (s.withFetchWord 16 w.toNat).fetch = w ∧
    s.withFetchWord 16 w.toNat = { s with mem := (s.withFetchWord 16 w.toNat).mem } ∧
    ∀ a, a ≠ s.pc.toNat → a ≠ s.pc.toNat + 1 → (s.withFetchWord 16 w.toNat).mem.read a = s.mem.read a

/-- 70_reset_and_hazards.md R201: byte `k` of the image at `0x200 + k`, the rest of the state untouched; a longer image
is refused (D26, log entry 24). That memory is and stays canonical (`Memory.wf`) is the model's representation (DESIGN
CHOICE, log entry 31), not R201's. -/
def Obligations.ProgramLoadWritesTheImageVerbatim : Prop :=
  ∀ (s : State) (image : List Byte), s.mem.wf →
    (3584 < image.length → s.loadProgram image = none) ∧
    (image.length ≤ 3584 → ∃ t, s.loadProgram image = some t ∧ t = { s with mem := t.mem } ∧ t.mem.wf ∧
      (∀ k (h : k < image.length), t.mem.read (0x200 + k) = image[k]) ∧
      ∀ a, a < 0x200 ∨ 0x200 + image.length ≤ a → t.mem.read a = s.mem.read a)

/-- 60_exceptions.md R182, 43_timer_peripheral.md R143: the host's key write sets one flag and nothing else. -/
def Obligations.KeyWriteSetsOneFlag : Prop :=
  ∀ (s : State) (k j : Fin 16) (down : Bool),
    (s.setKey k down).key[j] = (if j = k then down else s.key[j]) ∧ s.setKey k down = { s with key := (s.setKey k down).key }

/-- 70_reset_and_hazards.md R206: at the end of a run the core executes its self-jump for ever, and the timers go on
counting down; the state at the end is that of the FIRST such boundary, or the one after the number of cycles the host
fixed in advance, and never a halted one. The convention is the spec's own (D21, log entry 29). -/
def Obligations.EndOfRunIsKept : Prop :=
  (∀ s : State, atEndOfRun s = true →
    step s = .next { s with dt := tickDown s.dt, st := tickDown s.st } ∧
      atEndOfRun { s with dt := tickDown s.dt, st := tickDown s.st } = true) ∧
  ∀ (limit : Nat) (s t : State), stateAtEnd limit s = some t ↔
    t.halted = false ∧ ∃ k ≤ limit, core.run k s = .next t ∧ (k = limit ∨ atEndOfRun t = true) ∧
      ∀ j < k, ∀ u, core.run j s = .next u → atEndOfRun u = false

/-! ## Arithmetic and logic -/

/-- 40_alu.md section 2 (LD VX,VY; OR; AND; XOR). -/
def Obligations.AssignAndLogicWriteVxAlone : Prop :=
  ∀ (x y : Reg) (s : State),
    exec (.ldVxVy x y) s = .next { s with v := s.v.set x s.v[y], pc := s.pc + 2 } ∧
    exec (.orVxVy x y) s = .next { s with v := s.v.set x (s.v[x] ||| s.v[y]), pc := s.pc + 2 } ∧
    exec (.andVxVy x y) s = .next { s with v := s.v.set x (s.v[x] &&& s.v[y]), pc := s.pc + 2 } ∧
    exec (.xorVxVy x y) s = .next { s with v := s.v.set x (s.v[x] ^^^ s.v[y]), pc := s.pc + 2 }

/-- 40_alu.md section 2 (ADD VX,VY) and section 1. With X = 15 the result stays in VF: the spec's decision D14 (log entry
9). -/
def Obligations.AddWrapsAndVfIsTheCarry : Prop :=
  ∀ (x y : Reg) (s : State), ∃ t, exec (.addVxVy x y) s = .next t ∧ t = { s with v := t.v, pc := s.pc + 2 } ∧
    (t.reg x).toNat = ((s.reg x).toNat + (s.reg y).toNat) % 256 ∧
    (x ≠ 15 → t.reg 15 = if 255 < (s.reg x).toNat + (s.reg y).toNat then 1 else 0) ∧
    ∀ r, r ≠ x → r ≠ 15 → t.reg r = s.reg r

/-- 40_alu.md section 2 (SUB, SUBN) and section 1: VF is set by a strict comparison (90_conflicts.md C3, log entry 27).
With X = 15 the result stays in VF: the spec's decision D14 (log entry 9). -/
def Obligations.SubtractionsWrapAndVfIsStrictlyGreater : Prop :=
  ∀ (x y : Reg) (s : State),
    (∃ t, exec (.subVxVy x y) s = .next t ∧ t = { s with v := t.v, pc := s.pc + 2 } ∧
      (t.reg x).toNat = ((s.reg x).toNat + 256 - (s.reg y).toNat) % 256 ∧
      (x ≠ 15 → t.reg 15 = if (s.reg y).toNat < (s.reg x).toNat then 1 else 0) ∧
      ∀ r, r ≠ x → r ≠ 15 → t.reg r = s.reg r) ∧
    (∃ t, exec (.subnVxVy x y) s = .next t ∧ t = { s with v := t.v, pc := s.pc + 2 } ∧
      (t.reg x).toNat = ((s.reg y).toNat + 256 - (s.reg x).toNat) % 256 ∧
      (x ≠ 15 → t.reg 15 = if (s.reg x).toNat < (s.reg y).toNat then 1 else 0) ∧
      ∀ r, r ≠ x → r ≠ 15 → t.reg r = s.reg r)

/-- 40_alu.md section 2 (SHR, SHL) and section 1: one position, VF the bit shifted out. With X = 15 the result stays in
VF: the spec's decision D14 (log entry 9). -/
def Obligations.ShiftsMoveOneBitIntoVf : Prop :=
  ∀ (x : Reg) (s : State),
    (∃ t, exec (.shrVx x) s = .next t ∧ t = { s with v := t.v, pc := s.pc + 2 } ∧
      (t.reg x).toNat = (s.reg x).toNat / 2 ∧ (x ≠ 15 → (t.reg 15).toNat = (s.reg x).toNat % 2) ∧
      ∀ r, r ≠ x → r ≠ 15 → t.reg r = s.reg r) ∧
    (∃ t, exec (.shlVx x) s = .next t ∧ t = { s with v := t.v, pc := s.pc + 2 } ∧
      (t.reg x).toNat = 2 * (s.reg x).toNat % 256 ∧ (x ≠ 15 → (t.reg 15).toNat = (s.reg x).toNat / 128) ∧
      ∀ r, r ≠ x → r ≠ 15 → t.reg r = s.reg r)

/-! ## Control flow -/

/-- 41_control_flow.md section 1 (CLS). -/
def Obligations.ClsTurnsEveryCellOff : Prop :=
  ∀ s : State, ∃ t, exec .cls s = .next t ∧ (∀ n, t.fb.cell n = false) ∧ t = { s with fb := t.fb, pc := s.pc + 2 }

/-- 41_control_flow.md section 3 (JP NNN; JP V0,NNN, whose sum is kept whole: D24, log entry 20). -/
def Obligations.JumpsSetPc : Prop :=
  ∀ (nnn : Addr12) (s : State),
    (∃ t, exec (.jpNnn nnn) s = .next t ∧ t.pc.toNat = nnn.toNat ∧ t = { s with pc := t.pc }) ∧
    (∃ t, exec (.jpV0Nnn nnn) s = .next t ∧ t.pc.toNat = (s.reg 0).toNat + nnn.toNat ∧ t = { s with pc := t.pc })

/-- 41_control_flow.md R106: the condition, the two advances, nothing else written; and its words, `3XKK`. -/
def Obligations.SkipIfEqualToImmediate : Prop :=
  (∀ (x : Reg) (kk : Byte) (s : State),
    exec (.seVxKk x kk) s = .next { s with pc := s.pc + (if s.v[x] = kk then 4 else 2) }) ∧
  ∀ w : Word, w &&& 0xF000 = 0x3000 ↔ decode w = .instr (.seVxKk (fieldX w) (fieldKk w))

/-- 41_control_flow.md section 4 (SNE VX,KK; SE VX,VY; SNE VX,VY). -/
def Obligations.SkipsOnInequalityAndOnRegisters : Prop :=
  ∀ (x y : Reg) (kk : Byte) (s : State),
    exec (.sneVxKk x kk) s = .next { s with pc := s.pc + (if s.v[x] ≠ kk then 4 else 2) } ∧
    exec (.seVxVy x y) s = .next { s with pc := s.pc + (if s.v[x] = s.v[y] then 4 else 2) } ∧
    exec (.sneVxVy x y) s = .next { s with pc := s.pc + (if s.v[x] ≠ s.v[y] then 4 else 2) }

/-- 41_control_flow.md section 2 (CALL NNN with a free slot). -/
def Obligations.CallPushesTheReturnAddress : Prop :=
  ∀ (nnn : Addr12) (s : State) (h : s.sp.val < 16), ∃ t, exec (.callNnn nnn) s = .next t ∧
    t.sp.val = s.sp.val + 1 ∧ t.stack[s.sp.val] = s.pc + 2 ∧
    (∀ k : Fin 16, k.val ≠ s.sp.val → t.stack[k] = s.stack[k]) ∧ t.pc.toNat = nnn.toNat ∧
    t = { s with sp := t.sp, stack := t.stack, pc := t.pc }

/-- 41_control_flow.md section 2 (RET with a return address on the stack). -/
def Obligations.RetPopsTheReturnAddress : Prop :=
  ∀ (s : State) (h : 0 < s.sp.val), ∃ t, exec .ret s = .next t ∧
    t.sp.val = s.sp.val - 1 ∧ t.pc = s.stack[s.sp.val - 1] ∧ t = { s with sp := t.sp, pc := t.pc }

/-- 95_test_vectors.md S4, "Call/return stack balance", for every state with a free slot and every target: the slot SP
names keeps the return address, and every other slot is as before. -/
def Obligations.RetAfterCallComesBack : Prop :=
  ∀ (nnn : Addr12) (s : State) (h : s.sp.val < 16), ∃ t u, exec (.callNnn nnn) s = .next t ∧ exec .ret t = .next u ∧
    u.pc = s.pc + 2 ∧ u.stack[s.sp.val] = s.pc + 2 ∧
    (∀ k : Fin 16, k.val ≠ s.sp.val → u.stack[k] = s.stack[k]) ∧ u = { s with pc := u.pc, stack := u.stack }

/-! ## Memory and register transfer -/

/-- 42_mem_transfer.md section 2 (LD VX,KK; ADD VX,KK) and section 3 (LD I,NNN). -/
def Obligations.ImmediatesIntoVxAndI : Prop :=
  ∀ (x : Reg) (kk : Byte) (nnn : Addr12) (s : State),
    exec (.ldVxKk x kk) s = .next { s with v := s.v.set x kk, pc := s.pc + 2 } ∧
    exec (.addVxKk x kk) s =
      .next { s with v := s.v.set x (BitVec.ofNat 8 ((s.v[x].toNat + kk.toNat) % 256)), pc := s.pc + 2 } ∧
    exec (.ldINnn nnn) s = .next { s with i := BitVec.ofNat 16 nnn.toNat, pc := s.pc + 2 }

/-- 42_mem_transfer.md section 3 (ADD I,VX, which wraps at 16 bits: D25, log entry 21; LD F,VX, whose VX is not masked:
D16, log entry 16). -/
def Obligations.IndexRegisterArithmetic : Prop :=
  ∀ (x : Reg) (s : State),
    (∃ t, exec (.addIVx x) s = .next t ∧ t.i.toNat = (s.i.toNat + (s.reg x).toNat) % 65536 ∧
      t = { s with i := t.i, pc := s.pc + 2 }) ∧
    (∃ t, exec (.ldFVx x) s = .next t ∧ t.i.toNat = 0x50 + 5 * (s.reg x).toNat ∧
      t = { s with i := t.i, pc := s.pc + 2 })

/-- 42_mem_transfer.md section 4 (LD [I],VX) with section 1: VX itself is not stored; the stored bytes are those from `I` to
`I + X - 1`; every other byte reads as before. -/
def Obligations.DumpStoresTheRegistersBelowX : Prop :=
  ∀ (x : Reg) (s : State), s.mem.wf → x.val = 0 ∨ s.i.toNat + x.val - 1 ≤ 0xFFF →
    ∃ t, exec (.ldMemVx x) s = .next t ∧
      (∀ k : Reg, k < x → t.mem.read (s.i.toNat + k.val) = s.reg k) ∧
      (∀ a, a < s.i.toNat ∨ s.i.toNat + x.val ≤ a → t.mem.read a = s.mem.read a) ∧
      t = { s with mem := t.mem, pc := s.pc + 2 }

/-- 42_mem_transfer.md section 4 (LD VX,[I]) with section 1: VX and every higher register are not written. -/
def Obligations.LoadReadsTheRegistersBelowX : Prop :=
  ∀ (x : Reg) (s : State), x.val = 0 ∨ s.i.toNat + x.val - 1 ≤ 0xFFF →
    ∃ t, exec (.ldVxMem x) s = .next t ∧
      (∀ k : Reg, t.reg k = if k < x then s.mem.read (s.i.toNat + k.val) else s.reg k) ∧
      t = { s with v := t.v, pc := s.pc + 2 }

/-- 95_test_vectors.md S7: a dump and a load of the same X restore the registers below X, whatever the registers hold in
between, and leave the others. -/
def Obligations.LoadAfterDumpRestores : Prop :=
  ∀ (x : Reg) (s : State) (between : Vector Byte 16), s.mem.wf → x.val = 0 ∨ s.i.toNat + x.val - 1 ≤ 0xFFF →
    ∃ t u, exec (.ldMemVx x) s = .next t ∧ exec (.ldVxMem x) { t with v := between } = .next u ∧
      ∀ k : Reg, u.reg k = if k < x then s.reg k else between[k]

/-- 42_mem_transfer.md section 5 (LD B,VX): hundreds at I, the spec's decision D15 (log entry 10); every byte but the three
reads as before. -/
def Obligations.BcdStoresThreeDigits : Prop :=
  ∀ (x : Reg) (s : State), s.mem.wf → s.i.toNat + 2 ≤ 0xFFF →
    ∃ t, exec (.ldBVx x) s = .next t ∧
      (t.mem.read s.i.toNat).toNat = (s.reg x).toNat / 100 ∧
      (t.mem.read (s.i.toNat + 1)).toNat = (s.reg x).toNat / 10 % 10 ∧
      (t.mem.read (s.i.toNat + 2)).toNat = (s.reg x).toNat % 10 ∧
      (∀ a, a < s.i.toNat ∨ s.i.toNat + 3 ≤ a → t.mem.read a = s.mem.read a) ∧
      t = { s with mem := t.mem, pc := s.pc + 2 }

/-- 42_mem_transfer.md section 6 (RND VX,KK), for every byte the source answers; the byte itself is a free value, and the
count of draws is the model's own (log entry 17). -/
def Obligations.RndMasksOneFreshByte : Prop :=
  ∀ (x : Reg) (kk : Byte) (s : State), ∃ t, exec (.rndVxKk x kk) s = .next t ∧
    t.reg x = Config.rndByte s.draws &&& kk ∧ t.reg x &&& ~~~ kk = 0 ∧ (∀ r, r ≠ x → t.reg r = s.reg r) ∧
    t = { s with v := t.v, pc := s.pc + 2, draws := s.draws + 1 }

/-! ## Timers and keypad -/

/-- 43_timer_peripheral.md section 1: LD VX,DT reads DT before this cycle's decrement; the decrement is the step's (D13, log
entry 15). -/
def Obligations.TimerTransfers : Prop :=
  ∀ (x : Reg) (s : State),
    exec (.ldVxDt x) s = .next { s with v := s.v.set x s.dt, pc := s.pc + 2 } ∧
    exec (.ldDtVx x) s = .next { s with dt := s.v[x], pc := s.pc + 2 } ∧
    exec (.ldStVx x) s = .next { s with st := s.v[x], pc := s.pc + 2 }

/-- 43_timer_peripheral.md R143: the whole byte is compared with 16, it is not masked; the flag is the one the host last
wrote, which no cycle changes. -/
def Obligations.PressedReadsTheKeypad : Prop :=
  ∀ (s t : State) (b : Byte),
    (s.pressed b = true ↔ ∃ h : b.toNat < 16, s.key[b.toNat] = true) ∧
    (∀ (k : Fin 16) (down : Bool), (s.setKey k down).pressed b = if b.toNat = k.val then down else s.pressed b) ∧
    (step s = .next t → t.pressed b = s.pressed b)

/-- 43_timer_peripheral.md section 2 (SKP VX): a key number of 16 or more never skips. -/
def Obligations.SkpSkipsOnAPressedKey : Prop :=
  ∀ (x : Reg) (s : State),
    (16 ≤ s.v[x].toNat → exec (.skpVx x) s = .next { s with pc := s.pc + 2 }) ∧
    ∀ h : s.v[x].toNat < 16,
      exec (.skpVx x) s = .next { s with pc := s.pc + (if s.key[s.v[x].toNat] = true then 4 else 2) }

/-- 43_timer_peripheral.md section 2 (SKNP VX): a key number of 16 or more always skips, as the spec derives. -/
def Obligations.SknpSkipsUnlessThePressedKey : Prop :=
  ∀ (x : Reg) (s : State),
    (16 ≤ s.v[x].toNat → exec (.sknpVx x) s = .next { s with pc := s.pc + 4 }) ∧
    ∀ h : s.v[x].toNat < 16,
      exec (.sknpVx x) s = .next { s with pc := s.pc + (if s.key[s.v[x].toNat] = true then 2 else 4) }

/-- 43_timer_peripheral.md section 2 (LD VX,K): the least pressed key completes it; with no key pressed PC stays on it, so
that it is fetched again. -/
def Obligations.KeyWaitTakesTheLeastKeyOrStays : Prop :=
  ∀ (x : Reg) (s : State),
    (∀ k : Fin 16, s.key[k] = true → (∀ j : Fin 16, j < k → s.key[j] = false) →
      exec (.ldVxK x) s = .next { s with v := s.v.set x (BitVec.ofNat 8 k.val), pc := s.pc + 2 }) ∧
    ((∀ k : Fin 16, s.key[k] = false) → exec (.ldVxK x) s = .next s)

/-! ## Draw -/

/-- 44_draw.md section 1: the cells a sprite covers are toggled, VF is the collision. Row-major cells, bit 7 leftmost, and
literal indices with 2048 and above dropped are the spec's decisions D8, D9, D10 (log entries 11, 12); the origin is read
from the old VF (D29, log entry 23). -/
def Obligations.DrawTogglesTheCoveredCells : Prop :=
  ∀ (x y : Reg) (n : Nibble) (s : State), n = 0 ∨ s.i.toNat + n.toNat - 1 ≤ 0xFFF →
    ∃ t, exec (.drwVxVyN x y n) s = .next t ∧
      (∀ c < 2048, t.fb.cell c ≠ s.fb.cell c ↔
        spriteCovers s ((s.reg x).toNat % 64) ((s.reg y).toNat % 32) n.toNat c) ∧
      ((∃ c < 2048, s.fb.cell c = true ∧
        spriteCovers s ((s.reg x).toNat % 64) ((s.reg y).toNat % 32) n.toNat c) → t.reg 15 = 1) ∧
      ((¬ ∃ c < 2048, s.fb.cell c = true ∧
        spriteCovers s ((s.reg x).toNat % 64) ((s.reg y).toNat % 32) n.toNat c) → t.reg 15 = 0) ∧
      (∀ r, r ≠ 15 → t.reg r = s.reg r) ∧ t = { s with fb := t.fb, v := t.v, pc := s.pc + 2 }

/-- 95_test_vectors.md S6, 44_draw.md section 1: the same sprite twice at the same origin restores the framebuffer; the
second draw collides exactly when the first one turned a cell on (on a clear screen: when the sprite has a set pixel in a
cell; by R160's formula, log entry 36). With VF as an origin register the first draw changes the origin, so VF is left out. -/
def Obligations.DrawingTwiceRestoresTheScreen : Prop :=
  ∀ (x y : Reg) (n : Nibble) (s : State), x ≠ 15 → y ≠ 15 → n = 0 ∨ s.i.toNat + n.toNat - 1 ≤ 0xFFF →
    ∃ t u, exec (.drwVxVyN x y n) s = .next t ∧ exec (.drwVxVyN x y n) t = .next u ∧ u.fb = s.fb ∧
      (u.reg 15 = 1 ↔ ∃ c < 2048, s.fb.cell c = false ∧
        spriteCovers s ((s.reg x).toNat % 64) ((s.reg y).toNat % 32) n.toNat c)

/-- 44_draw.md section 1 (N = 0): VF is cleared and nothing is drawn or checked (D27, log entry 22). -/
def Obligations.DrawOfNoRowsOnlyClearsVf : Prop :=
  ∀ (x y : Reg) (s : State), exec (.drwVxVyN x y 0) s = .next { s with v := s.v.set 15 0, pc := s.pc + 2 }

/-! ## Parameters -/

/-- 00_scope.md R4: the cycle and the reset state with the parameters as an argument. Under the spec's values (`params`, log
entry 34) they are the machine's; under every configuration reset leaves its FONT and its fill; and under every configuration
whose OOB_POLICY is the fault (D4, log entry 5), whatever the other parameters, a faulting cycle is precise. -/
def Obligations.CycleAndResetUnderEveryConfiguration : Prop :=
  (∀ s : State, stepUnder params s = step s) ∧ State.resetUnder params = State.reset ∧
  (∀ c : Config, (State.resetUnder c).mem.wf ∧
    ∀ a < 0x1000, (State.resetUnder c).mem.read a =
      if 0x050 ≤ a ∧ a < 0x0A0 then c.font.getD (a - 0x050) c.resetFill.mem else c.resetFill.mem) ∧
  ∀ (c : Config) (s t : State), c.oobPolicy = .fault → s.halted = false → stepUnder c s = .next t → t.halted = true →
    t = { s with fault := t.fault } ∧ t.fault.epc = s.pc ∧ stepUnder c t = .next t
end

