-- ==== Sys2Proof/Laws/Decode.lean ====
section
/-! SUPPORT. The opcode map is unambiguous (30_encoding.md R68: "each 16-bit word matches at most one row"), so a row that
hits a word is the one the decoder takes; the fields and the masked bits of the formats. -/

namespace Sys2Proof

/-- Two rows differ in a bit that both look at. -/
def rowsDiffer (r t : OpcodeRow) : Bool := (r.bits ^^^ t.bits) &&& r.mask &&& t.mask != 0

/-- No two rows of the map overlap, under either reading of SEL_WIDTH. -/
theorem opcodeTable_pairwise (sel : SelWidth) : (opcodeTable sel).Pairwise (fun r t => rowsDiffer r t = true) := by
  cases sel <;> decide

/-- Two rows that differ do not hit the same word. -/
theorem not_hits_of_rowsDiffer {r t : OpcodeRow} {w : Word} (h : rowsDiffer r t = true) (hr : r.hits w = true) :
    t.hits w = false := by
  by_contra ht
  have ht : t.hits w = true := by simpa using ht
  simp only [OpcodeRow.hits, beq_iff_eq] at hr ht
  have hne : (r.bits ^^^ t.bits) &&& r.mask &&& t.mask ≠ 0 := by simpa [rowsDiffer] using h
  refine hne ?_
  rw [← hr, ← ht]
  ext k hk
  simp only [BitVec.getElem_and, BitVec.getElem_xor]
  cases w[k] <;> cases r.mask[k] <;> cases t.mask[k] <;> simp

/-- Searching a list of pairwise differing rows finds any row that hits. -/
theorem find_hits {rows : List OpcodeRow} {r : OpcodeRow} {w : Word}
    (hp : rows.Pairwise (fun r t => rowsDiffer r t = true)) (hr : r ∈ rows) (hw : r.hits w = true) :
    rows.find? (fun t => t.hits w) = some r := by
  induction rows with
  | nil => simp at hr
  | cons t rows ih =>
    obtain ⟨ht, hp⟩ := List.pairwise_cons.mp hp
    rcases List.mem_cons.mp hr with rfl | hr
    · simp [hw]
    · have : t.hits w = false := by
        by_contra h
        have := not_hits_of_rowsDiffer (ht r hr) (by simpa using h)
        simp_all
      simp [this, ih hp hr]

/-- The decoder takes the row that hits. -/
theorem decodeWith_of_row {sel : SelWidth} {r : OpcodeRow} {w : Word} (hr : r ∈ opcodeTable sel)
    (hw : r.hits w = true) : decodeWith sel w = .instr (r.build w) := by
  simp [decodeWith, find_hits (opcodeTable_pairwise sel) hr hw]

/-- The decoder under the spec's SEL_WIDTH takes the row that hits. -/
theorem decode_of_row {r : OpcodeRow} {w : Word} (hr : r ∈ opcodeTable .byte) (hw : r.hits w = true) :
    decode w = .instr (r.build w) := decodeWith_of_row hr hw

/-- What the decoder can answer: a row of the map that hits, or no row hits. -/
theorem decode_cases (w : Word) :
    (∃ r ∈ opcodeTable .byte, r.hits w = true ∧ decode w = .instr (r.build w)) ∨
      ((∀ r ∈ opcodeTable .byte, r.hits w = false) ∧ decode w = .rejected (.unmatchedSelector (fieldOp w))) := by
  unfold decode decodeWith
  cases h : (opcodeTable Machine.params.selWidth).find? (fun r => r.hits w) with
  | some r => exact .inl ⟨r, List.mem_of_find?_eq_some h, List.find?_some (p := fun r : OpcodeRow => r.hits w) h, rfl⟩
  | none => exact .inr ⟨fun r hr => by simpa using List.find?_eq_none.mp h r hr, rfl⟩

@[simp] theorem regField_fieldX (w : Word) : regField (fieldX w) = w.extractLsb' 8 4 := rfl

@[simp] theorem regField_fieldY (w : Word) : regField (fieldY w) = w.extractLsb' 4 4 := rfl

/-- The bits of format A. -/
theorem getLsbD_formatA (op : Nibble) (nnn : Addr12) (k : Nat) :
    (formatA op nnn).getLsbD k = if k < 12 then nnn.getLsbD k else op.getLsbD (k - 12) :=
  BitVec.getLsbD_append (x := op) (y := nnn) (i := k)

/-- The bits of formats XK and XS. -/
theorem getLsbD_formatXk (op : Nibble) (x : Reg) (kk : Byte) (k : Nat) :
    (formatXk op x kk).getLsbD k =
      if k < 8 then kk.getLsbD k else if k < 12 then (regField x).getLsbD (k - 8) else op.getLsbD (k - 12) := by
  refine (BitVec.getLsbD_append (x := op ++ regField x) (y := kk) (i := k)).trans ?_
  rw [BitVec.getLsbD_append (x := op) (y := regField x) (i := k - 8)]
  repeat' split
  all_goals first | rfl | omega

/-- The bits of formats XY and XYN. -/
theorem getLsbD_formatXyn (op : Nibble) (x y : Reg) (n : Nibble) (k : Nat) :
    (formatXyn op x y n).getLsbD k =
      if k < 4 then n.getLsbD k else if k < 8 then (regField y).getLsbD (k - 4)
      else if k < 12 then (regField x).getLsbD (k - 8) else op.getLsbD (k - 12) := by
  refine (BitVec.getLsbD_append (x := op ++ regField x ++ regField y) (y := n) (i := k)).trans ?_
  rw [BitVec.getLsbD_append (x := op ++ regField x) (y := regField y) (i := k - 4),
    BitVec.getLsbD_append (x := op) (y := regField x) (i := k - 4 - 4)]
  repeat' split
  all_goals first | rfl | omega

/-- Every word is its leading nibble and its 12-bit field. -/
theorem formatA_fields (w : Word) : formatA (fieldOp w) (fieldNnn w) = w := by
  refine BitVec.eq_of_getLsbD_eq fun k hk => ?_
  rw [getLsbD_formatA]
  interval_cases k <;> simp [fieldOp, fieldNnn]

/-- Every word is its leading nibble, its X and its trailing byte. -/
theorem formatXk_fields (w : Word) : formatXk (fieldOp w) (fieldX w) (fieldKk w) = w := by
  refine BitVec.eq_of_getLsbD_eq fun k hk => ?_
  rw [getLsbD_formatXk]
  interval_cases k <;> simp [fieldOp, fieldKk]

/-- Every word is its leading nibble, its X, its Y and its trailing nibble. -/
theorem formatXyn_fields (w : Word) : formatXyn (fieldOp w) (fieldX w) (fieldY w) (fieldN w) = w := by
  refine BitVec.eq_of_getLsbD_eq fun k hk => ?_
  rw [getLsbD_formatXyn]
  interval_cases k <;> simp [fieldOp, fieldN]

@[simp] theorem fieldX_formatXk (op : Nibble) (x : Reg) (kk : Byte) : fieldX (formatXk op x kk) = x := by
  have : (formatXk op x kk).extractLsb' 8 4 = regField x := by
    refine BitVec.eq_of_getLsbD_eq fun k hk => ?_
    interval_cases k <;> simp only [BitVec.getLsbD_extractLsb', getLsbD_formatXk] <;> rfl
  rw [fieldX, this]
  rfl

@[simp] theorem fieldKk_formatXk (op : Nibble) (x : Reg) (kk : Byte) : fieldKk (formatXk op x kk) = kk := by
  refine BitVec.eq_of_getLsbD_eq fun k hk => ?_
  interval_cases k <;> simp only [fieldKk, BitVec.getLsbD_extractLsb', getLsbD_formatXk] <;> rfl

@[simp] theorem fieldNnn_formatA (op : Nibble) (nnn : Addr12) : fieldNnn (formatA op nnn) = nnn := by
  refine BitVec.eq_of_getLsbD_eq fun k hk => ?_
  interval_cases k <;> simp only [fieldNnn, BitVec.getLsbD_extractLsb', getLsbD_formatA] <;> rfl

@[simp] theorem fieldX_formatXyn (op : Nibble) (x y : Reg) (n : Nibble) : fieldX (formatXyn op x y n) = x := by
  have : (formatXyn op x y n).extractLsb' 8 4 = regField x := by
    refine BitVec.eq_of_getLsbD_eq fun k hk => ?_
    interval_cases k <;> simp only [BitVec.getLsbD_extractLsb', getLsbD_formatXyn] <;> rfl
  rw [fieldX, this]
  rfl

@[simp] theorem fieldY_formatXyn (op : Nibble) (x y : Reg) (n : Nibble) : fieldY (formatXyn op x y n) = y := by
  have : (formatXyn op x y n).extractLsb' 4 4 = regField y := by
    refine BitVec.eq_of_getLsbD_eq fun k hk => ?_
    interval_cases k <;> simp only [BitVec.getLsbD_extractLsb', getLsbD_formatXyn] <;> rfl
  rw [fieldY, this]
  rfl

@[simp] theorem fieldN_formatXyn (op : Nibble) (x y : Reg) (n : Nibble) : fieldN (formatXyn op x y n) = n := by
  refine BitVec.eq_of_getLsbD_eq fun k hk => ?_
  interval_cases k <;> simp only [fieldN, BitVec.getLsbD_extractLsb', getLsbD_formatXyn] <;> rfl

/-- Under the family mask only the leading nibble of format A is left. -/
theorem formatA_family (op : Nibble) (nnn : Addr12) : formatA op nnn &&& 0xF000 = formatA op 0 := by
  refine BitVec.eq_of_getLsbD_eq fun k hk => ?_
  rw [BitVec.getLsbD_and, getLsbD_formatA, getLsbD_formatA]
  interval_cases k <;> simp

/-- Under the family mask only the leading nibble of formats XK and XS is left. -/
theorem formatXk_family (op : Nibble) (x : Reg) (kk : Byte) : formatXk op x kk &&& 0xF000 = formatXk op 0 0 := by
  refine BitVec.eq_of_getLsbD_eq fun k hk => ?_
  rw [BitVec.getLsbD_and, getLsbD_formatXk, getLsbD_formatXk]
  interval_cases k <;> simp [regField]

/-- Under the byte selector mask the leading nibble and the trailing byte of format XS are left. -/
theorem formatXk_selector (op : Nibble) (x : Reg) (kk : Byte) : formatXk op x kk &&& 0xF0FF = formatXk op 0 kk := by
  refine BitVec.eq_of_getLsbD_eq fun k hk => ?_
  rw [BitVec.getLsbD_and, getLsbD_formatXk, getLsbD_formatXk]
  interval_cases k <;> simp [regField]

/-- Under the family mask only the leading nibble of formats XY and XYN is left. -/
theorem formatXyn_family (op : Nibble) (x y : Reg) (n : Nibble) :
    formatXyn op x y n &&& 0xF000 = formatXyn op 0 0 0 := by
  refine BitVec.eq_of_getLsbD_eq fun k hk => ?_
  rw [BitVec.getLsbD_and, getLsbD_formatXyn, getLsbD_formatXyn]
  interval_cases k <;> simp [regField]

/-- Under the nibble selector mask the leading and the trailing nibble of format XY are left. -/
theorem formatXyn_selector (op : Nibble) (x y : Reg) (n : Nibble) :
    formatXyn op x y n &&& 0xF00F = formatXyn op 0 0 n := by
  refine BitVec.eq_of_getLsbD_eq fun k hk => ?_
  rw [BitVec.getLsbD_and, getLsbD_formatXyn, getLsbD_formatXyn]
  interval_cases k <;> simp [regField]

end Sys2Proof
end

