-- ==== Sys2Proof/Laws/Memory.lean ====
section
/-! SUPPORT. The canonical form of memory: reset has it and every memory operation keeps it; what a write leaves in the
list, and where a run of bytes is written. -/

namespace Sys2Proof.Machine

theorem Memory.wf_nil : Memory.wf [] := ⟨List.Pairwise.nil, by simp⟩

@[simp] theorem Memory.read_nil (a : Nat) : Memory.read [] a = Memory.initial a := rfl

/-- An address below every listed one reads as it does unlisted. -/
theorem Memory.read_of_lt_all {m : Memory} {a : Nat} (h : ∀ c ∈ m, a < c.1) : m.read a = Memory.initial a := by
  induction m with
  | nil => rfl
  | cons c m ih =>
    have hc := h c (by simp)
    simp only [Memory.read, Nat.ne_of_lt hc, if_false]
    exact ih fun d hd => h d (by simp [hd])

/-- Every entry after a write is an old entry or the written one, which differs from the unlisted value. -/
theorem Memory.mem_write {m : Memory} {a : Nat} {v : Byte} {c : Host.Cell} (h : c ∈ m.write a v) :
    c ∈ m ∨ c = (a, v) ∧ v ≠ Memory.initial a := by
  induction m with
  | nil =>
    simp only [Memory.write] at h
    split at h <;> simp_all
  | cons d m ih =>
    simp only [Memory.write] at h
    split at h
    · split at h <;> simp_all
      tauto
    · split at h
      · split at h <;> simp_all
        tauto
      · rcases List.mem_cons.mp h with rfl | h
        · simp
        · rcases ih h with h | h
          · exact .inl (by simp [h])
          · exact .inr h

/-- A write keeps the canonical form. -/
theorem Memory.write_wf {m : Memory} {a : Nat} (v : Byte) (hm : m.wf) (ha : a < 0x1000) : (m.write a v).wf := by
  refine ⟨?_, fun c hc => ?_⟩
  · obtain ⟨hp, -⟩ := hm
    induction m with
    | nil => simp only [Memory.write]; split <;> simp
    | cons d m ih =>
      obtain ⟨hd, hp'⟩ := List.pairwise_cons.mp hp
      simp only [Memory.write]
      split
      · next hlt =>
        split
        · exact hp
        · refine List.pairwise_cons.mpr ⟨fun e he => ?_, hp⟩
          rcases List.mem_cons.mp he with rfl | he
          · exact hlt
          · exact hlt.trans (hd e he)
      · split
        · next heq =>
          split
          · exact hp'
          · exact List.pairwise_cons.mpr ⟨fun e he => heq ▸ hd e he, hp'⟩
        · refine List.pairwise_cons.mpr ⟨fun e he => ?_, ih hp'⟩
          rcases Memory.mem_write he with he | ⟨rfl, -⟩
          · exact hd e he
          · show d.1 < a; omega
  · rcases Memory.mem_write hc with hc | ⟨rfl, hv⟩
    · exact hm.2 c hc
    · exact ⟨ha, hv⟩

/-- A run of bytes that stays in memory keeps the canonical form. -/
theorem Memory.writeBytes_wf {m : Memory} {a : Nat} (bs : List Byte) (hm : m.wf) (ha : a + bs.length ≤ 0x1000) :
    (m.writeBytes a bs).wf := by
  induction bs generalizing m a with
  | nil => exact hm
  | cons b bs ih =>
    simp only [List.length_cons] at ha
    exact ih (Memory.write_wf b hm (by omega)) (by omega)

/-- Another address reads as before, in every memory. -/
theorem Memory.read_write_ne (m : Memory) {a b : Nat} (v : Byte) (h : b ≠ a) : (m.write a v).read b = m.read b := by
  induction m with
  | nil => simp only [Memory.write]; split <;> simp [Memory.read, h]
  | cons d m ih =>
    simp only [Memory.write]
    split
    · split <;> simp [Memory.read, h]
    · split
      · next heq => subst heq; split <;> simp [Memory.read, h]
      · simp only [Memory.read, ih]

/-- An address outside a run of written bytes reads as before, in every memory. -/
theorem Memory.read_writeBytes_outside (m : Memory) {a b : Nat} (bs : List Byte) (h : b < a ∨ a + bs.length ≤ b) :
    (m.writeBytes a bs).read b = m.read b := by
  induction bs generalizing m a with
  | nil => rfl
  | cons v bs ih =>
    simp only [List.length_cons] at h
    rw [Memory.writeBytes, ih _ (by omega), Memory.read_write_ne _ _ (by omega)]

/-- Memory after reset under any configuration is canonical. -/
theorem Memory.resetBelow_wf (c : Config) {n : Nat} (hn : n ≤ 0x1000) : (Memory.resetBelow c n).wf := by
  induction n with
  | zero => exact Memory.wf_nil
  | succ n ih => exact Memory.write_wf _ (ih (by omega)) (by omega)

/-- Under the spec's parameters reset lists nothing: an unlisted address reads as reset leaves it. -/
@[simp] theorem Memory.resetBelow_params (n : Nat) : Memory.resetBelow params n = [] := by
  induction n with
  | zero => rfl
  | succ n ih => simp [Memory.resetBelow, ih, Memory.write, Memory.initial]

/-- Memory after reset as the bytes below 0x1000, for `rw`. -/
theorem Memory.resetUnder_eq (c : Config) : Memory.resetUnder c = Memory.resetBelow c 0x1000 := by
  unfold Memory.resetUnder
  with_reducible rfl

@[simp] theorem Memory.length_readBytes (m : Memory) (a n : Nat) : (m.readBytes a n).length = n := by
  simp [Memory.readBytes]

end Sys2Proof.Machine
end

