-- ==== Sys2Proof/Laws/State.lean ====
section
/-! SUPPORT. One lemma per field per update of the state, so that no later proof unfolds a record update. `State.reg`
reads through `State.setReg` by `reg_setReg`. -/

namespace Sys2Proof.Machine

@[simp] theorem State.setReg_v (s : State) (x : Reg) (b : Byte) : (s.setReg x b).v = s.v.set x b := rfl
@[simp] theorem State.setReg_i (s : State) (x : Reg) (b : Byte) : (s.setReg x b).i = s.i := rfl
@[simp] theorem State.setReg_pc (s : State) (x : Reg) (b : Byte) : (s.setReg x b).pc = s.pc := rfl
@[simp] theorem State.setReg_sp (s : State) (x : Reg) (b : Byte) : (s.setReg x b).sp = s.sp := rfl
@[simp] theorem State.setReg_stack (s : State) (x : Reg) (b : Byte) : (s.setReg x b).stack = s.stack := rfl
@[simp] theorem State.setReg_dt (s : State) (x : Reg) (b : Byte) : (s.setReg x b).dt = s.dt := rfl
@[simp] theorem State.setReg_st (s : State) (x : Reg) (b : Byte) : (s.setReg x b).st = s.st := rfl
@[simp] theorem State.setReg_key (s : State) (x : Reg) (b : Byte) : (s.setReg x b).key = s.key := rfl
@[simp] theorem State.setReg_fb (s : State) (x : Reg) (b : Byte) : (s.setReg x b).fb = s.fb := rfl
@[simp] theorem State.setReg_mem (s : State) (x : Reg) (b : Byte) : (s.setReg x b).mem = s.mem := rfl
@[simp] theorem State.setReg_fault (s : State) (x : Reg) (b : Byte) : (s.setReg x b).fault = s.fault := rfl
@[simp] theorem State.setReg_draws (s : State) (x : Reg) (b : Byte) : (s.setReg x b).draws = s.draws := rfl

@[simp] theorem State.setI_v (s : State) (a : Word) : (s.setI a).v = s.v := rfl
@[simp] theorem State.setI_i (s : State) (a : Word) : (s.setI a).i = a := rfl
@[simp] theorem State.setI_pc (s : State) (a : Word) : (s.setI a).pc = s.pc := rfl
@[simp] theorem State.setI_sp (s : State) (a : Word) : (s.setI a).sp = s.sp := rfl
@[simp] theorem State.setI_stack (s : State) (a : Word) : (s.setI a).stack = s.stack := rfl
@[simp] theorem State.setI_dt (s : State) (a : Word) : (s.setI a).dt = s.dt := rfl
@[simp] theorem State.setI_st (s : State) (a : Word) : (s.setI a).st = s.st := rfl
@[simp] theorem State.setI_key (s : State) (a : Word) : (s.setI a).key = s.key := rfl
@[simp] theorem State.setI_fb (s : State) (a : Word) : (s.setI a).fb = s.fb := rfl
@[simp] theorem State.setI_mem (s : State) (a : Word) : (s.setI a).mem = s.mem := rfl
@[simp] theorem State.setI_fault (s : State) (a : Word) : (s.setI a).fault = s.fault := rfl
@[simp] theorem State.setI_draws (s : State) (a : Word) : (s.setI a).draws = s.draws := rfl

@[simp] theorem State.setPc_v (s : State) (a : Word) : (s.setPc a).v = s.v := rfl
@[simp] theorem State.setPc_i (s : State) (a : Word) : (s.setPc a).i = s.i := rfl
@[simp] theorem State.setPc_pc (s : State) (a : Word) : (s.setPc a).pc = a := rfl
@[simp] theorem State.setPc_sp (s : State) (a : Word) : (s.setPc a).sp = s.sp := rfl
@[simp] theorem State.setPc_stack (s : State) (a : Word) : (s.setPc a).stack = s.stack := rfl
@[simp] theorem State.setPc_dt (s : State) (a : Word) : (s.setPc a).dt = s.dt := rfl
@[simp] theorem State.setPc_st (s : State) (a : Word) : (s.setPc a).st = s.st := rfl
@[simp] theorem State.setPc_key (s : State) (a : Word) : (s.setPc a).key = s.key := rfl
@[simp] theorem State.setPc_fb (s : State) (a : Word) : (s.setPc a).fb = s.fb := rfl
@[simp] theorem State.setPc_mem (s : State) (a : Word) : (s.setPc a).mem = s.mem := rfl
@[simp] theorem State.setPc_fault (s : State) (a : Word) : (s.setPc a).fault = s.fault := rfl
@[simp] theorem State.setPc_draws (s : State) (a : Word) : (s.setPc a).draws = s.draws := rfl

@[simp] theorem State.setDt_v (s : State) (b : Byte) : (s.setDt b).v = s.v := rfl
@[simp] theorem State.setDt_i (s : State) (b : Byte) : (s.setDt b).i = s.i := rfl
@[simp] theorem State.setDt_pc (s : State) (b : Byte) : (s.setDt b).pc = s.pc := rfl
@[simp] theorem State.setDt_sp (s : State) (b : Byte) : (s.setDt b).sp = s.sp := rfl
@[simp] theorem State.setDt_stack (s : State) (b : Byte) : (s.setDt b).stack = s.stack := rfl
@[simp] theorem State.setDt_dt (s : State) (b : Byte) : (s.setDt b).dt = b := rfl
@[simp] theorem State.setDt_st (s : State) (b : Byte) : (s.setDt b).st = s.st := rfl
@[simp] theorem State.setDt_key (s : State) (b : Byte) : (s.setDt b).key = s.key := rfl
@[simp] theorem State.setDt_fb (s : State) (b : Byte) : (s.setDt b).fb = s.fb := rfl
@[simp] theorem State.setDt_mem (s : State) (b : Byte) : (s.setDt b).mem = s.mem := rfl
@[simp] theorem State.setDt_fault (s : State) (b : Byte) : (s.setDt b).fault = s.fault := rfl
@[simp] theorem State.setDt_draws (s : State) (b : Byte) : (s.setDt b).draws = s.draws := rfl

@[simp] theorem State.setSt_v (s : State) (b : Byte) : (s.setSt b).v = s.v := rfl
@[simp] theorem State.setSt_i (s : State) (b : Byte) : (s.setSt b).i = s.i := rfl
@[simp] theorem State.setSt_pc (s : State) (b : Byte) : (s.setSt b).pc = s.pc := rfl
@[simp] theorem State.setSt_sp (s : State) (b : Byte) : (s.setSt b).sp = s.sp := rfl
@[simp] theorem State.setSt_stack (s : State) (b : Byte) : (s.setSt b).stack = s.stack := rfl
@[simp] theorem State.setSt_dt (s : State) (b : Byte) : (s.setSt b).dt = s.dt := rfl
@[simp] theorem State.setSt_st (s : State) (b : Byte) : (s.setSt b).st = b := rfl
@[simp] theorem State.setSt_key (s : State) (b : Byte) : (s.setSt b).key = s.key := rfl
@[simp] theorem State.setSt_fb (s : State) (b : Byte) : (s.setSt b).fb = s.fb := rfl
@[simp] theorem State.setSt_mem (s : State) (b : Byte) : (s.setSt b).mem = s.mem := rfl
@[simp] theorem State.setSt_fault (s : State) (b : Byte) : (s.setSt b).fault = s.fault := rfl
@[simp] theorem State.setSt_draws (s : State) (b : Byte) : (s.setSt b).draws = s.draws := rfl

@[simp] theorem State.advance_v (s : State) : (s.advance).v = s.v := rfl
@[simp] theorem State.advance_i (s : State) : (s.advance).i = s.i := rfl
@[simp] theorem State.advance_pc (s : State) : (s.advance).pc = s.pc + 2 := rfl
@[simp] theorem State.advance_sp (s : State) : (s.advance).sp = s.sp := rfl
@[simp] theorem State.advance_stack (s : State) : (s.advance).stack = s.stack := rfl
@[simp] theorem State.advance_dt (s : State) : (s.advance).dt = s.dt := rfl
@[simp] theorem State.advance_st (s : State) : (s.advance).st = s.st := rfl
@[simp] theorem State.advance_key (s : State) : (s.advance).key = s.key := rfl
@[simp] theorem State.advance_fb (s : State) : (s.advance).fb = s.fb := rfl
@[simp] theorem State.advance_mem (s : State) : (s.advance).mem = s.mem := rfl
@[simp] theorem State.advance_fault (s : State) : (s.advance).fault = s.fault := rfl
@[simp] theorem State.advance_draws (s : State) : (s.advance).draws = s.draws := rfl

@[simp] theorem State.rewind_v (s : State) : (s.rewind).v = s.v := rfl
@[simp] theorem State.rewind_i (s : State) : (s.rewind).i = s.i := rfl
@[simp] theorem State.rewind_pc (s : State) : (s.rewind).pc = s.pc - 2 := rfl
@[simp] theorem State.rewind_sp (s : State) : (s.rewind).sp = s.sp := rfl
@[simp] theorem State.rewind_stack (s : State) : (s.rewind).stack = s.stack := rfl
@[simp] theorem State.rewind_dt (s : State) : (s.rewind).dt = s.dt := rfl
@[simp] theorem State.rewind_st (s : State) : (s.rewind).st = s.st := rfl
@[simp] theorem State.rewind_key (s : State) : (s.rewind).key = s.key := rfl
@[simp] theorem State.rewind_fb (s : State) : (s.rewind).fb = s.fb := rfl
@[simp] theorem State.rewind_mem (s : State) : (s.rewind).mem = s.mem := rfl
@[simp] theorem State.rewind_fault (s : State) : (s.rewind).fault = s.fault := rfl
@[simp] theorem State.rewind_draws (s : State) : (s.rewind).draws = s.draws := rfl

@[simp] theorem State.skipIf_v (s : State) (c : Bool) : (s.skipIf c).v = s.v := by cases c <;> rfl
@[simp] theorem State.skipIf_i (s : State) (c : Bool) : (s.skipIf c).i = s.i := by cases c <;> rfl
@[simp] theorem State.skipIf_pc (s : State) (c : Bool) : (s.skipIf c).pc = if c then s.pc + 2 else s.pc := by
  cases c <;> rfl
@[simp] theorem State.skipIf_sp (s : State) (c : Bool) : (s.skipIf c).sp = s.sp := by cases c <;> rfl
@[simp] theorem State.skipIf_stack (s : State) (c : Bool) : (s.skipIf c).stack = s.stack := by cases c <;> rfl
@[simp] theorem State.skipIf_dt (s : State) (c : Bool) : (s.skipIf c).dt = s.dt := by cases c <;> rfl
@[simp] theorem State.skipIf_st (s : State) (c : Bool) : (s.skipIf c).st = s.st := by cases c <;> rfl
@[simp] theorem State.skipIf_key (s : State) (c : Bool) : (s.skipIf c).key = s.key := by cases c <;> rfl
@[simp] theorem State.skipIf_fb (s : State) (c : Bool) : (s.skipIf c).fb = s.fb := by cases c <;> rfl
@[simp] theorem State.skipIf_mem (s : State) (c : Bool) : (s.skipIf c).mem = s.mem := by cases c <;> rfl
@[simp] theorem State.skipIf_fault (s : State) (c : Bool) : (s.skipIf c).fault = s.fault := by cases c <;> rfl
@[simp] theorem State.skipIf_draws (s : State) (c : Bool) : (s.skipIf c).draws = s.draws := by cases c <;> rfl

@[simp] theorem State.raise_v (s : State) (f : FaultCause) (n : BitVec 17) : (s.raise f n).v = s.v := rfl
@[simp] theorem State.raise_i (s : State) (f : FaultCause) (n : BitVec 17) : (s.raise f n).i = s.i := rfl
@[simp] theorem State.raise_pc (s : State) (f : FaultCause) (n : BitVec 17) : (s.raise f n).pc = s.pc := rfl
@[simp] theorem State.raise_sp (s : State) (f : FaultCause) (n : BitVec 17) : (s.raise f n).sp = s.sp := rfl
@[simp] theorem State.raise_stack (s : State) (f : FaultCause) (n : BitVec 17) : (s.raise f n).stack = s.stack := rfl
@[simp] theorem State.raise_dt (s : State) (f : FaultCause) (n : BitVec 17) : (s.raise f n).dt = s.dt := rfl
@[simp] theorem State.raise_st (s : State) (f : FaultCause) (n : BitVec 17) : (s.raise f n).st = s.st := rfl
@[simp] theorem State.raise_key (s : State) (f : FaultCause) (n : BitVec 17) : (s.raise f n).key = s.key := rfl
@[simp] theorem State.raise_fb (s : State) (f : FaultCause) (n : BitVec 17) : (s.raise f n).fb = s.fb := rfl
@[simp] theorem State.raise_mem (s : State) (f : FaultCause) (n : BitVec 17) : (s.raise f n).mem = s.mem := rfl
@[simp] theorem State.raise_fault (s : State) (f : FaultCause) (n : BitVec 17) : (s.raise f n).fault = { cause := f, epc := s.pc, info := n } :=
    rfl
@[simp] theorem State.raise_draws (s : State) (f : FaultCause) (n : BitVec 17) : (s.raise f n).draws = s.draws := rfl

@[simp] theorem State.storeAtI_v (s : State) (bs : List Byte) : (s.storeAtI bs).v = s.v := rfl
@[simp] theorem State.storeAtI_i (s : State) (bs : List Byte) : (s.storeAtI bs).i = s.i := rfl
@[simp] theorem State.storeAtI_pc (s : State) (bs : List Byte) : (s.storeAtI bs).pc = s.pc := rfl
@[simp] theorem State.storeAtI_sp (s : State) (bs : List Byte) : (s.storeAtI bs).sp = s.sp := rfl
@[simp] theorem State.storeAtI_stack (s : State) (bs : List Byte) : (s.storeAtI bs).stack = s.stack := rfl
@[simp] theorem State.storeAtI_dt (s : State) (bs : List Byte) : (s.storeAtI bs).dt = s.dt := rfl
@[simp] theorem State.storeAtI_st (s : State) (bs : List Byte) : (s.storeAtI bs).st = s.st := rfl
@[simp] theorem State.storeAtI_key (s : State) (bs : List Byte) : (s.storeAtI bs).key = s.key := rfl
@[simp] theorem State.storeAtI_fb (s : State) (bs : List Byte) : (s.storeAtI bs).fb = s.fb := rfl
@[simp] theorem State.storeAtI_mem (s : State) (bs : List Byte) : (s.storeAtI bs).mem = s.mem.writeBytes s.i.toNat bs :=
    rfl
@[simp] theorem State.storeAtI_fault (s : State) (bs : List Byte) : (s.storeAtI bs).fault = s.fault := rfl
@[simp] theorem State.storeAtI_draws (s : State) (bs : List Byte) : (s.storeAtI bs).draws = s.draws := rfl

@[simp] theorem State.timerTick_v (s : State) : (s.timerTick).v = s.v := rfl
@[simp] theorem State.timerTick_i (s : State) : (s.timerTick).i = s.i := rfl
@[simp] theorem State.timerTick_pc (s : State) : (s.timerTick).pc = s.pc := rfl
@[simp] theorem State.timerTick_sp (s : State) : (s.timerTick).sp = s.sp := rfl
@[simp] theorem State.timerTick_stack (s : State) : (s.timerTick).stack = s.stack := rfl
@[simp] theorem State.timerTick_dt (s : State) : (s.timerTick).dt = tickDown s.dt := rfl
@[simp] theorem State.timerTick_st (s : State) : (s.timerTick).st = tickDown s.st := rfl
@[simp] theorem State.timerTick_key (s : State) : (s.timerTick).key = s.key := rfl
@[simp] theorem State.timerTick_fb (s : State) : (s.timerTick).fb = s.fb := rfl
@[simp] theorem State.timerTick_mem (s : State) : (s.timerTick).mem = s.mem := rfl
@[simp] theorem State.timerTick_fault (s : State) : (s.timerTick).fault = s.fault := rfl
@[simp] theorem State.timerTick_draws (s : State) : (s.timerTick).draws = s.draws := rfl

@[simp] theorem State.drawRnd_snd_v (s : State) : (s.drawRnd.2).v = s.v := rfl
@[simp] theorem State.drawRnd_snd_i (s : State) : (s.drawRnd.2).i = s.i := rfl
@[simp] theorem State.drawRnd_snd_pc (s : State) : (s.drawRnd.2).pc = s.pc := rfl
@[simp] theorem State.drawRnd_snd_sp (s : State) : (s.drawRnd.2).sp = s.sp := rfl
@[simp] theorem State.drawRnd_snd_stack (s : State) : (s.drawRnd.2).stack = s.stack := rfl
@[simp] theorem State.drawRnd_snd_dt (s : State) : (s.drawRnd.2).dt = s.dt := rfl
@[simp] theorem State.drawRnd_snd_st (s : State) : (s.drawRnd.2).st = s.st := rfl
@[simp] theorem State.drawRnd_snd_key (s : State) : (s.drawRnd.2).key = s.key := rfl
@[simp] theorem State.drawRnd_snd_fb (s : State) : (s.drawRnd.2).fb = s.fb := rfl
@[simp] theorem State.drawRnd_snd_mem (s : State) : (s.drawRnd.2).mem = s.mem := rfl
@[simp] theorem State.drawRnd_snd_fault (s : State) : (s.drawRnd.2).fault = s.fault := rfl
@[simp] theorem State.drawRnd_snd_draws (s : State) : (s.drawRnd.2).draws = s.draws + 1 := rfl

@[simp] theorem State.setResultAndFlag_i (o : VfOrder) (s : State) (x : Reg) (r f : Byte) : (State.setResultAndFlag o s x r f).i = s.i := by
  cases o <;> rfl
@[simp] theorem State.setResultAndFlag_pc (o : VfOrder) (s : State) (x : Reg) (r f : Byte) : (State.setResultAndFlag o s x r f).pc = s.pc := by
  cases o <;> rfl
@[simp] theorem State.setResultAndFlag_sp (o : VfOrder) (s : State) (x : Reg) (r f : Byte) : (State.setResultAndFlag o s x r f).sp = s.sp := by
  cases o <;> rfl
@[simp] theorem State.setResultAndFlag_stack (o : VfOrder) (s : State) (x : Reg) (r f : Byte) : (State.setResultAndFlag o s x r f).stack = s.stack := by
  cases o <;> rfl
@[simp] theorem State.setResultAndFlag_dt (o : VfOrder) (s : State) (x : Reg) (r f : Byte) : (State.setResultAndFlag o s x r f).dt = s.dt := by
  cases o <;> rfl
@[simp] theorem State.setResultAndFlag_st (o : VfOrder) (s : State) (x : Reg) (r f : Byte) : (State.setResultAndFlag o s x r f).st = s.st := by
  cases o <;> rfl
@[simp] theorem State.setResultAndFlag_key (o : VfOrder) (s : State) (x : Reg) (r f : Byte) : (State.setResultAndFlag o s x r f).key = s.key := by
  cases o <;> rfl
@[simp] theorem State.setResultAndFlag_fb (o : VfOrder) (s : State) (x : Reg) (r f : Byte) : (State.setResultAndFlag o s x r f).fb = s.fb := by
  cases o <;> rfl
@[simp] theorem State.setResultAndFlag_mem (o : VfOrder) (s : State) (x : Reg) (r f : Byte) : (State.setResultAndFlag o s x r f).mem = s.mem := by
  cases o <;> rfl
@[simp] theorem State.setResultAndFlag_fault (o : VfOrder) (s : State) (x : Reg) (r f : Byte) : (State.setResultAndFlag o s x r f).fault = s.fault := by
  cases o <;> rfl
@[simp] theorem State.setResultAndFlag_draws (o : VfOrder) (s : State) (x : Reg) (r f : Byte) : (State.setResultAndFlag o s x r f).draws = s.draws := by
  cases o <;> rfl

@[simp] theorem State.setKey_v (s : State) (k : Fin 16) (d : Bool) : (s.setKey k d).v = s.v := rfl
@[simp] theorem State.setKey_i (s : State) (k : Fin 16) (d : Bool) : (s.setKey k d).i = s.i := rfl
@[simp] theorem State.setKey_pc (s : State) (k : Fin 16) (d : Bool) : (s.setKey k d).pc = s.pc := rfl
@[simp] theorem State.setKey_sp (s : State) (k : Fin 16) (d : Bool) : (s.setKey k d).sp = s.sp := rfl
@[simp] theorem State.setKey_stack (s : State) (k : Fin 16) (d : Bool) : (s.setKey k d).stack = s.stack := rfl
@[simp] theorem State.setKey_dt (s : State) (k : Fin 16) (d : Bool) : (s.setKey k d).dt = s.dt := rfl
@[simp] theorem State.setKey_st (s : State) (k : Fin 16) (d : Bool) : (s.setKey k d).st = s.st := rfl
@[simp] theorem State.setKey_key (s : State) (k : Fin 16) (d : Bool) : (s.setKey k d).key = s.key.set k d := rfl
@[simp] theorem State.setKey_fb (s : State) (k : Fin 16) (d : Bool) : (s.setKey k d).fb = s.fb := rfl
@[simp] theorem State.setKey_mem (s : State) (k : Fin 16) (d : Bool) : (s.setKey k d).mem = s.mem := rfl
@[simp] theorem State.setKey_fault (s : State) (k : Fin 16) (d : Bool) : (s.setKey k d).fault = s.fault := rfl
@[simp] theorem State.setKey_draws (s : State) (k : Fin 16) (d : Bool) : (s.setKey k d).draws = s.draws := rfl

/-- A register read after a register write. -/
theorem State.reg_setReg (s : State) (x r : Reg) (b : Byte) :
    (s.setReg x b).reg r = if r = x then b else s.reg r := by
  simp only [State.reg, State.setReg, Fin.getElem_fin, Vector.getElem_set, Fin.ext_iff, eq_comm]

/-- A register read depends on the registers alone. -/
theorem State.reg_congr (s t : State) (h : t.v = s.v) (r : Reg) : t.reg r = s.reg r := by
  simp only [State.reg, h]

@[simp] theorem State.reg_advance (s : State) (r : Reg) : s.advance.reg r = s.reg r := rfl

@[simp] theorem State.reg_setPc (s : State) (a : Word) (r : Reg) : (s.setPc a).reg r = s.reg r := rfl

@[simp] theorem State.reg_timerTick (s : State) (r : Reg) : s.timerTick.reg r = s.reg r := rfl

/-- When the key a byte names is pressed: never for a byte of 16 or more (43_timer_peripheral.md R143). -/
theorem State.pressed_eq_true_iff (s : State) (b : Byte) :
    s.pressed b = true ↔ ∃ h : b.toNat < 16, s.key[b.toNat] = true := by
  unfold State.pressed
  split <;> simp_all

end Sys2Proof.Machine
end

