-- ==== Sys2Proof/Laws/Ops.lean ====
section
/-! SUPPORT. One lemma for each shared operation that says once everything it can do. -/

namespace Sys2Proof.Machine

@[simp] theorem State.halted_raise (s : State) (f : FaultCause) (n : BitVec 17) :
    (s.raise f n).halted = (f != .noFault) := rfl

/-- Under the spec's OOB_POLICY a cycle out of range ends in the fault (60_exceptions.md R172). -/
@[simp] theorem State.outOfRange_fault (s : State) (f : FaultCause) (n : BitVec 17) :
    s.outOfRange .fault f n = s.raise f n := rfl

/-- Under the spec's OOB_POLICY the fetch past the end ends in FETCH_OOB (60_exceptions.md R173). -/
@[simp] theorem State.fetchFault_fault (s : State) : s.fetchFault .fault = s.raise .fetchOob (s.pc.setWidth 17) := rfl

/-- The I-relative access check in numbers (20_memory.md R45). -/
theorem State.outOfBounds_iff (s : State) (len : Nat) :
    s.outOfBounds len = true ↔ 0 < len ∧ 0xFFF < s.i.toNat + len - 1 := by
  simp only [State.outOfBounds, Bool.and_eq_true, decide_eq_true_eq]
  rfl

/-- What an I-relative access answers: MEM_OOB with nothing else changed, or its end. -/
theorem State.access_cases (s t u : State) (len : Nat) (h : s.access .fault len t = .next u) :
    (s.outOfBounds len = true ∧ u = s.raise .memOob (BitVec.ofNat 17 (s.lastAddress len))) ∨
      (s.outOfBounds len = false ∧ u = t) := by
  unfold State.access State.outOfRange at h
  split at h <;> simp_all

/-- An I-relative access that stays in memory ends as its instruction says. -/
theorem State.access_inBounds (s t : State) {o : OobPolicy} (len : Nat) (h : len = 0 ∨ s.i.toNat + len - 1 ≤ 0xFFF) :
    s.access o len t = .next t := by
  have : ¬ s.outOfBounds len = true := by rw [State.outOfBounds_iff]; omega
  simp [State.access, this]

/-- What CALL answers: a push and a jump, or STACK_OVERFLOW with nothing else changed. -/
theorem State.call_cases (p s u : State) (target : Word) (h : State.call p s .fault target = .next u) :
    (∃ hs : s.sp.val < 16, u = { s with
        stack := s.stack.set s.sp.val s.pc, sp := ⟨s.sp.val + 1, by omega⟩, pc := target }) ∨
      (¬ s.sp.val < 16 ∧ u = p.raise .stackOverflow (BitVec.ofNat 17 p.sp.val)) := by
  unfold State.call State.outOfRange at h
  split at h <;> simp_all

/-- What RET answers: a pop, or STACK_UNDERFLOW with nothing else changed. -/
theorem State.ret_cases (p s u : State) (h : State.ret p s .fault = .next u) :
    (∃ hs : 0 < s.sp.val, u = { s with sp := ⟨s.sp.val - 1, by omega⟩, pc := s.stack[s.sp.val - 1]'(by omega) }) ∨
      (s.sp.val = 0 ∧ u = p.raise .stackUnderflow (BitVec.ofNat 17 p.sp.val)) := by
  unfold State.ret State.outOfRange at h
  split at h <;> simp_all

/-- What a cycle around a routine answers, under the spec's TIMER_PHASE: the routine's end, ticked unless it faulted. -/
theorem cycleAround_after (run : State → Result) (s t : State) (h : run s = .next t) :
    cycleAround .after run s = .next (if t.halted then t else t.timerTick) := by
  simp [cycleAround, h]

/-- A timer's decrement in numbers: natural subtraction stops at 0 (60_exceptions.md R180). -/
theorem toNat_tickDown (b : Byte) : (tickDown b).toNat = b.toNat - 1 := by
  unfold tickDown
  split <;> rename_i h
  · simp [h]
  · have : b.toNat ≠ 0 := fun h' => h (BitVec.eq_of_toNat_eq (by simpa using h'))
    have := b.isLt
    rw [BitVec.toNat_sub, show (1 : Byte).toNat = 1 from rfl]
    omega

/-- VF's two writes, under the spec's VF_ORDER: when X = 15 the result stays (40_alu.md R80). -/
theorem reg_setResultAndFlag (s : State) (x r : Reg) (result flag : Byte) :
    (State.setResultAndFlag .flagFirst s x result flag).reg r =
      if r = x then result else if r = vf then flag else s.reg r := by
  simp only [State.setResultAndFlag, State.reg_setReg]

/-- A cell after a toggle: the toggled cell changes, no other does; there is none at 2048 and above. -/
theorem Frame.cell_toggle (f : Frame) (n k : Nat) (hn : n < 2048) :
    (f.toggle n).cell k = if k = n then !f.cell k else f.cell k := by
  have hq : n / 64 < 32 := by omega
  by_cases hk : k / 64 < 32
  · simp only [Frame.toggle, Frame.cell, hq, hk, dif_pos]
    by_cases hrow : n / 64 = k / 64
    · simp only [hrow, Vector.getElem_set_self, BitVec.getLsbD_xor, BitVec.getLsbD_twoPow]
      by_cases he : k = n
      · subst he; simp [Nat.mod_lt]
      · have : ¬ n % 64 = k % 64 := by omega
        simp [he, this]
    · have he : k ≠ n := by rintro rfl; exact hrow rfl
      simp [he, Vector.getElem_set_ne, hrow]
  · have he : k ≠ n := by rintro rfl; exact hk hq
    simp [Frame.cell, hk, he]

/-- Every cell is off after CLS. -/
@[simp] theorem Frame.cell_clear (k : Nat) : Frame.clear.cell k = false := by
  simp [Frame.cell, Frame.clear]

/-- The load's registers: below X from memory, the others as they were (42_mem_transfer.md R125). -/
theorem State.getElem_loadBelow (s : State) (x r : Reg) :
    (s.loadBelow x)[r] = if r < x then s.mem.read (s.i.toNat + r.val) else s.reg r := by
  simp [State.loadBelow, State.reg]

/-- The dump stores X bytes. -/
@[simp] theorem State.length_regsBelow (s : State) (x : Reg) : (s.regsBelow x).length = x.val := by
  simp [State.regsBelow]

@[simp] theorem length_bcdDigits (o : BcdOrder) (b : Byte) : (bcdDigits o b).length = 3 := by
  cases o <;> rfl

end Sys2Proof.Machine
end

