-- ==== Sys2Proof/Laws/PerInstr.lean ====
section
/-! SUPPORT. Statements about the instruction as syntax, one lemma per constructor (LAWS.json, "per_instruction"). Family
`EncodingRow`: the word `encode` gives an instruction is hit by a row of the opcode map, and that row builds the
instruction back from it. -/

namespace Sys2Proof.Laws.EncodingRow

/-- The word of `i` is a word of a row of the opcode map, whose operands are those of `i` (30_encoding.md R68). -/
def Statement (i : Instr) : Prop :=
  ∃ r ∈ opcodeTable .byte, r.hits (encode i) = true ∧ r.build (encode i) = i

/-- The rows of the map, family by family. -/
theorem mem_map (r : OpcodeRow)
    (h : r ∈ family0Rows .byte ∨ r ∈ singleRows ∨ r ∈ family8Rows ∨ r ∈ familyERows .byte ∨ r ∈ familyFRows) :
    r ∈ opcodeTable .byte := by
  simp only [opcodeTable, List.mem_append]
  tauto

theorem cls : Statement .cls := by
  refine ⟨selectorRow .byte 0x00E0 (fun _ => .cls), mem_map _ (.inl (by simp [family0Rows])), ?_, ?_⟩
  · decide
  · rfl

theorem ret : Statement .ret := by
  refine ⟨selectorRow .byte 0x00EE (fun _ => .ret), mem_map _ (.inl (by simp [family0Rows])), ?_, ?_⟩
  · decide
  · rfl

theorem jpNnn (nnn : Addr12) : Statement (.jpNnn nnn) := by
  refine ⟨⟨0xF000, 0x1000, fun w => .jpNnn (fieldNnn w)⟩, mem_map _ (.inr (.inl (by simp [singleRows]))), ?_, ?_⟩
  · simp only [OpcodeRow.hits, encode, formatA_family]; decide
  · simp [encode]

theorem callNnn (nnn : Addr12) : Statement (.callNnn nnn) := by
  refine ⟨⟨0xF000, 0x2000, fun w => .callNnn (fieldNnn w)⟩, mem_map _ (.inr (.inl (by simp [singleRows]))), ?_, ?_⟩
  · simp only [OpcodeRow.hits, encode, formatA_family]; decide
  · simp [encode]

theorem seVxKk (x : Reg) (kk : Byte) : Statement (.seVxKk x kk) := by
  refine ⟨⟨0xF000, 0x3000, fun w => .seVxKk (fieldX w) (fieldKk w)⟩, mem_map _ (.inr (.inl (by simp [singleRows]))), ?_, ?_⟩
  · simp only [OpcodeRow.hits, encode, formatXk_family]; decide
  · simp [encode]

theorem sneVxKk (x : Reg) (kk : Byte) : Statement (.sneVxKk x kk) := by
  refine ⟨⟨0xF000, 0x4000, fun w => .sneVxKk (fieldX w) (fieldKk w)⟩, mem_map _ (.inr (.inl (by simp [singleRows]))), ?_, ?_⟩
  · simp only [OpcodeRow.hits, encode, formatXk_family]; decide
  · simp [encode]

theorem seVxVy (x y : Reg) : Statement (.seVxVy x y) := by
  refine ⟨⟨0xF000, 0x5000, fun w => .seVxVy (fieldX w) (fieldY w)⟩, mem_map _ (.inr (.inl (by simp [singleRows]))), ?_, ?_⟩
  · simp only [OpcodeRow.hits, encode, formatXyn_family]; decide
  · simp [encode]

theorem ldVxKk (x : Reg) (kk : Byte) : Statement (.ldVxKk x kk) := by
  refine ⟨⟨0xF000, 0x6000, fun w => .ldVxKk (fieldX w) (fieldKk w)⟩, mem_map _ (.inr (.inl (by simp [singleRows]))), ?_, ?_⟩
  · simp only [OpcodeRow.hits, encode, formatXk_family]; decide
  · simp [encode]

theorem addVxKk (x : Reg) (kk : Byte) : Statement (.addVxKk x kk) := by
  refine ⟨⟨0xF000, 0x7000, fun w => .addVxKk (fieldX w) (fieldKk w)⟩, mem_map _ (.inr (.inl (by simp [singleRows]))), ?_, ?_⟩
  · simp only [OpcodeRow.hits, encode, formatXk_family]; decide
  · simp [encode]

theorem ldVxVy (x y : Reg) : Statement (.ldVxVy x y) := by
  refine ⟨⟨0xF00F, 0x8000, fun w => .ldVxVy (fieldX w) (fieldY w)⟩, mem_map _ (.inr (.inr (.inl (by simp [family8Rows])))), ?_, ?_⟩
  · simp only [OpcodeRow.hits, encode, formatXyn_selector]; decide
  · simp [encode]

theorem orVxVy (x y : Reg) : Statement (.orVxVy x y) := by
  refine ⟨⟨0xF00F, 0x8001, fun w => .orVxVy (fieldX w) (fieldY w)⟩, mem_map _ (.inr (.inr (.inl (by simp [family8Rows])))), ?_, ?_⟩
  · simp only [OpcodeRow.hits, encode, formatXyn_selector]; decide
  · simp [encode]

theorem andVxVy (x y : Reg) : Statement (.andVxVy x y) := by
  refine ⟨⟨0xF00F, 0x8002, fun w => .andVxVy (fieldX w) (fieldY w)⟩, mem_map _ (.inr (.inr (.inl (by simp [family8Rows])))), ?_, ?_⟩
  · simp only [OpcodeRow.hits, encode, formatXyn_selector]; decide
  · simp [encode]

theorem xorVxVy (x y : Reg) : Statement (.xorVxVy x y) := by
  refine ⟨⟨0xF00F, 0x8003, fun w => .xorVxVy (fieldX w) (fieldY w)⟩, mem_map _ (.inr (.inr (.inl (by simp [family8Rows])))), ?_, ?_⟩
  · simp only [OpcodeRow.hits, encode, formatXyn_selector]; decide
  · simp [encode]

theorem addVxVy (x y : Reg) : Statement (.addVxVy x y) := by
  refine ⟨⟨0xF00F, 0x8004, fun w => .addVxVy (fieldX w) (fieldY w)⟩, mem_map _ (.inr (.inr (.inl (by simp [family8Rows])))), ?_, ?_⟩
  · simp only [OpcodeRow.hits, encode, formatXyn_selector]; decide
  · simp [encode]

theorem subVxVy (x y : Reg) : Statement (.subVxVy x y) := by
  refine ⟨⟨0xF00F, 0x8005, fun w => .subVxVy (fieldX w) (fieldY w)⟩, mem_map _ (.inr (.inr (.inl (by simp [family8Rows])))), ?_, ?_⟩
  · simp only [OpcodeRow.hits, encode, formatXyn_selector]; decide
  · simp [encode]

theorem shrVx (x : Reg) : Statement (.shrVx x) := by
  refine ⟨⟨0xF00F, 0x8006, fun w => .shrVx (fieldX w)⟩, mem_map _ (.inr (.inr (.inl (by simp [family8Rows])))), ?_, ?_⟩
  · simp only [OpcodeRow.hits, encode, formatXyn_selector]; decide
  · simp [encode]

theorem subnVxVy (x y : Reg) : Statement (.subnVxVy x y) := by
  refine ⟨⟨0xF00F, 0x8007, fun w => .subnVxVy (fieldX w) (fieldY w)⟩, mem_map _ (.inr (.inr (.inl (by simp [family8Rows])))), ?_, ?_⟩
  · simp only [OpcodeRow.hits, encode, formatXyn_selector]; decide
  · simp [encode]

theorem shlVx (x : Reg) : Statement (.shlVx x) := by
  refine ⟨⟨0xF00F, 0x800E, fun w => .shlVx (fieldX w)⟩, mem_map _ (.inr (.inr (.inl (by simp [family8Rows])))), ?_, ?_⟩
  · simp only [OpcodeRow.hits, encode, formatXyn_selector]; decide
  · simp [encode]

theorem sneVxVy (x y : Reg) : Statement (.sneVxVy x y) := by
  refine ⟨⟨0xF000, 0x9000, fun w => .sneVxVy (fieldX w) (fieldY w)⟩, mem_map _ (.inr (.inl (by simp [singleRows]))), ?_, ?_⟩
  · simp only [OpcodeRow.hits, encode, formatXyn_family]; decide
  · simp [encode]

theorem ldINnn (nnn : Addr12) : Statement (.ldINnn nnn) := by
  refine ⟨⟨0xF000, 0xA000, fun w => .ldINnn (fieldNnn w)⟩, mem_map _ (.inr (.inl (by simp [singleRows]))), ?_, ?_⟩
  · simp only [OpcodeRow.hits, encode, formatA_family]; decide
  · simp [encode]

theorem jpV0Nnn (nnn : Addr12) : Statement (.jpV0Nnn nnn) := by
  refine ⟨⟨0xF000, 0xB000, fun w => .jpV0Nnn (fieldNnn w)⟩, mem_map _ (.inr (.inl (by simp [singleRows]))), ?_, ?_⟩
  · simp only [OpcodeRow.hits, encode, formatA_family]; decide
  · simp [encode]

theorem rndVxKk (x : Reg) (kk : Byte) : Statement (.rndVxKk x kk) := by
  refine ⟨⟨0xF000, 0xC000, fun w => .rndVxKk (fieldX w) (fieldKk w)⟩, mem_map _ (.inr (.inl (by simp [singleRows]))), ?_, ?_⟩
  · simp only [OpcodeRow.hits, encode, formatXk_family]; decide
  · simp [encode]

theorem drwVxVyN (x y : Reg) (n : Nibble) : Statement (.drwVxVyN x y n) := by
  refine ⟨⟨0xF000, 0xD000, fun w => .drwVxVyN (fieldX w) (fieldY w) (fieldN w)⟩, mem_map _ (.inr (.inl (by simp [singleRows]))), ?_, ?_⟩
  · simp only [OpcodeRow.hits, encode, formatXyn_family]; decide
  · simp [encode]

theorem skpVx (x : Reg) : Statement (.skpVx x) := by
  refine ⟨selectorRow .byte 0xE09E (fun w => .skpVx (fieldX w)), mem_map _ (.inr (.inr (.inr (.inl (by simp [familyERows]))))), ?_, ?_⟩
  · simp only [selectorRow, selectorMask, OpcodeRow.hits, encode, formatXk_selector]; decide
  · simp [selectorRow, encode]

theorem sknpVx (x : Reg) : Statement (.sknpVx x) := by
  refine ⟨selectorRow .byte 0xE0A1 (fun w => .sknpVx (fieldX w)), mem_map _ (.inr (.inr (.inr (.inl (by simp [familyERows]))))), ?_, ?_⟩
  · simp only [selectorRow, selectorMask, OpcodeRow.hits, encode, formatXk_selector]; decide
  · simp [selectorRow, encode]

theorem ldVxDt (x : Reg) : Statement (.ldVxDt x) := by
  refine ⟨⟨0xF0FF, 0xF007, fun w => .ldVxDt (fieldX w)⟩, mem_map _ (.inr (.inr (.inr (.inr (by simp [familyFRows]))))), ?_, ?_⟩
  · simp only [OpcodeRow.hits, encode, formatXk_selector]; decide
  · simp [encode]

theorem ldVxK (x : Reg) : Statement (.ldVxK x) := by
  refine ⟨⟨0xF0FF, 0xF00A, fun w => .ldVxK (fieldX w)⟩, mem_map _ (.inr (.inr (.inr (.inr (by simp [familyFRows]))))), ?_, ?_⟩
  · simp only [OpcodeRow.hits, encode, formatXk_selector]; decide
  · simp [encode]

theorem ldDtVx (x : Reg) : Statement (.ldDtVx x) := by
  refine ⟨⟨0xF0FF, 0xF015, fun w => .ldDtVx (fieldX w)⟩, mem_map _ (.inr (.inr (.inr (.inr (by simp [familyFRows]))))), ?_, ?_⟩
  · simp only [OpcodeRow.hits, encode, formatXk_selector]; decide
  · simp [encode]

theorem ldStVx (x : Reg) : Statement (.ldStVx x) := by
  refine ⟨⟨0xF0FF, 0xF018, fun w => .ldStVx (fieldX w)⟩, mem_map _ (.inr (.inr (.inr (.inr (by simp [familyFRows]))))), ?_, ?_⟩
  · simp only [OpcodeRow.hits, encode, formatXk_selector]; decide
  · simp [encode]

theorem addIVx (x : Reg) : Statement (.addIVx x) := by
  refine ⟨⟨0xF0FF, 0xF01E, fun w => .addIVx (fieldX w)⟩, mem_map _ (.inr (.inr (.inr (.inr (by simp [familyFRows]))))), ?_, ?_⟩
  · simp only [OpcodeRow.hits, encode, formatXk_selector]; decide
  · simp [encode]

theorem ldFVx (x : Reg) : Statement (.ldFVx x) := by
  refine ⟨⟨0xF0FF, 0xF029, fun w => .ldFVx (fieldX w)⟩, mem_map _ (.inr (.inr (.inr (.inr (by simp [familyFRows]))))), ?_, ?_⟩
  · simp only [OpcodeRow.hits, encode, formatXk_selector]; decide
  · simp [encode]

theorem ldBVx (x : Reg) : Statement (.ldBVx x) := by
  refine ⟨⟨0xF0FF, 0xF033, fun w => .ldBVx (fieldX w)⟩, mem_map _ (.inr (.inr (.inr (.inr (by simp [familyFRows]))))), ?_, ?_⟩
  · simp only [OpcodeRow.hits, encode, formatXk_selector]; decide
  · simp [encode]

theorem ldMemVx (x : Reg) : Statement (.ldMemVx x) := by
  refine ⟨⟨0xF0FF, 0xF055, fun w => .ldMemVx (fieldX w)⟩, mem_map _ (.inr (.inr (.inr (.inr (by simp [familyFRows]))))), ?_, ?_⟩
  · simp only [OpcodeRow.hits, encode, formatXk_selector]; decide
  · simp [encode]

theorem ldVxMem (x : Reg) : Statement (.ldVxMem x) := by
  refine ⟨⟨0xF0FF, 0xF065, fun w => .ldVxMem (fieldX w)⟩, mem_map _ (.inr (.inr (.inr (.inr (by simp [familyFRows]))))), ?_, ?_⟩
  · simp only [OpcodeRow.hits, encode, formatXk_selector]; decide
  · simp [encode]

end Sys2Proof.Laws.EncodingRow
end

