-- ==== Sys2Proof/Laws/Step.lean ====
section
/-! SUPPORT. What one step can do, said once (30_encoding.md R60). -/

namespace Sys2Proof.Machine

/-- What `Execute(op)` answers: the decoded instruction's meaning, or the no-op. -/
theorem execute_cases (w : Word) (s t : State) (h : execute w s = .next t) :
    (∃ i, decode w = .instr i ∧ exec i s = .next t) ∨ (∃ e, decode w = .rejected e ∧ t = s.advance) := by
  unfold execute at h
  split at h
  · next i hi => exact .inl ⟨i, hi, h⟩
  · next e he =>
    simp only [noOp, Host.Outcome.next.injEq] at h
    exact .inr ⟨e, he, h.symm⟩

/-- The fetch check in numbers (60_exceptions.md R173). -/
theorem State.fetchable_iff (s : State) : s.fetchable = true ↔ s.pc.toNat ≤ 0xFFE := by
  simp [State.fetchable]

/-- A halted core's cycle (30_encoding.md R60). -/
theorem step_of_halted (s : State) (h : s.halted = true) : step s = .next s := by simp [step, cycleOf, h]

/-- A running core whose PC lies in memory executes what it fetches, and ticks unless that faulted. -/
theorem step_of_execute (s t : State) (hh : s.halted = false) (hf : s.fetchable = true)
    (h : execute s.fetch s = .next t) : step s = .next (if t.halted then t else t.timerTick) := by
  simp only [step, cycleOf, hh, hf, if_true, Bool.false_eq_true, if_false]
  exact cycleAround_after _ _ _ h

/-- Everything a step can do: nothing on a halted core; FETCH_OOB; or a routine's end, ticked unless it faulted. -/
theorem step_cases (s t : State) (h : step s = .next t) :
    (s.halted = true ∧ t = s) ∨ (s.halted = false ∧ s.fetchable = false ∧ t = s.fetchFault .fault) ∨
      (s.halted = false ∧ s.fetchable = true ∧
        ∃ u, execute s.fetch s = .next u ∧ t = if u.halted then u else u.timerTick) := by
  unfold step cycleOf at h
  split at h
  · next hh => exact .inl ⟨hh, by simpa using h.symm⟩
  · next hh =>
    have hh : s.halted = false := by simpa using hh
    split at h
    · next hf =>
      cases hu : execute s.fetch s with
      | next u =>
        rw [show params.timerPhase = .after from rfl, cycleAround_after _ _ _ hu] at h
        exact .inr (.inr ⟨hh, hf, u, rfl, by simpa using h.symm⟩)
      | fault r => exact nomatch r
      | refused r => simp [show params.timerPhase = .after from rfl, cycleAround, hu] at h
    · next hf => exact .inr (.inl ⟨hh, by simpa using hf, by simpa [show params.oobPolicy = .fault from rfl] using h.symm⟩)

end Sys2Proof.Machine
end

