-- ==== Sys2Proof/Laws/Under.lean ====
section
/-! SUPPORT. The twelve meanings that a parameter governs, over the shared operations with the spec's value of it; the
machine under the spec's parameters is the machine. -/

namespace Sys2Proof.Machine

theorem execRet_eq (s : State) : execRet s = State.ret s s.advance .fault := rfl

theorem execCallNnn_eq (nnn : Addr12) (s : State) :
    execCallNnn nnn s = State.call s s.advance .fault (addressOf nnn) := rfl

theorem execAddVxVy_eq (x y : Reg) (s : State) :
    execAddVxVy x y s = s.finishAlu .flagFirst x (s.reg x + s.reg y) (carryFlag (s.reg x) (s.reg y)) := rfl

theorem execSubVxVy_eq (x y : Reg) (s : State) :
    execSubVxVy x y s = s.finishAlu .flagFirst x (s.reg x - s.reg y) (greaterFlag (s.reg x) (s.reg y)) := rfl

theorem execShrVx_eq (x : Reg) (s : State) :
    execShrVx x s = s.finishAlu .flagFirst x (s.reg x >>> 1) (lowBitFlag (s.reg x)) := rfl

theorem execSubnVxVy_eq (x y : Reg) (s : State) :
    execSubnVxVy x y s = s.finishAlu .flagFirst x (s.reg y - s.reg x) (greaterFlag (s.reg y) (s.reg x)) := rfl

theorem execShlVx_eq (x : Reg) (s : State) :
    execShlVx x s = s.finishAlu .flagFirst x (s.reg x <<< 1) (highBitFlag (s.reg x)) := rfl

theorem execLdFVx_eq (x : Reg) (s : State) :
    execLdFVx x s = .next (s.advance.setI (glyphAddress .unmasked (s.reg x))) := rfl

theorem execLdBVx_eq (x : Reg) (s : State) :
    execLdBVx x s = s.access .fault 3 (s.advance.storeAtI (bcdDigits .hundredsFirst (s.reg x))) := rfl

theorem execLdMemVx_eq (x : Reg) (s : State) :
    execLdMemVx x s = s.access .fault x.val (s.advance.storeAtI (s.regsBelow x)) := rfl

theorem execLdVxMem_eq (x : Reg) (s : State) :
    execLdVxMem x s = s.access .fault x.val { s.advance with v := s.loadBelow x } := rfl

theorem execDrwVxVyN_eq (x y : Reg) (n : Nibble) (s : State) :
    execDrwVxVyN x y n s = s.access .fault n.toNat
      ({ s.advance with fb := (s.fb.draw (s.drawCells .literal x y n)).1 }.setReg vf
        (flagByte (s.fb.draw (s.drawCells .literal x y n)).2)) := rfl

/-- Under the spec's parameters the meaning of an instruction is `exec`'s. -/
@[simp] theorem execUnder_params (i : Instr) (s : State) : execUnder params i s = exec i s := by cases i <;> rfl

/-- Under the spec's parameters `Execute(op)` is `execute`. -/
@[simp] theorem executeUnder_params (w : Word) (s : State) : executeUnder params w s = execute w s := by
  simp only [executeUnder, execUnder_params]
  rfl

@[simp] theorem State.resetUnder_mem (c : Config) : (State.resetUnder c).mem = Memory.resetUnder c := rfl

end Sys2Proof.Machine
end

