-- ==== Sys2Proof/Tests/Slice0.lean ====
section
/-! SUPPORT. The model's own tests: ill-formed terms the checks refuse, words written out from the spec's encodings, one
step on small states with the results of 95_test_vectors.md, and a witness for the hypotheses of every statement. -/

namespace Sys2Proof.Tests

open Sys2Proof Sys2Proof.Machine

/-! ## Helpers -/

/-- The reset state with some registers set. -/
def regs (l : List (Reg × Byte)) : State := l.foldl (fun s p => s.setReg p.1 p.2) State.reset

/-- A state with some bytes of memory set. -/
def bytes (a : Nat) (bs : List Byte) (s : State) : State := { s with mem := s.mem.writeBytes a bs }

/-- A state with some cells of the framebuffer on. -/
def cells (l : List Nat) (s : State) : State := { s with fb := l.foldl Frame.toggle Frame.clear }

/-- A state with some keys pressed. -/
def keys (l : List (Fin 16)) (s : State) : State := l.foldl (fun s k => s.setKey k true) s

/-- A state with a word where the next fetch reads it. -/
def placed (w : Nat) (s : State) : State := s.withFetchWord 16 w

/-- The state after a result, if there is one. -/
def stateOf (r : Result) : Option State :=
  match r with
  | .next t => some t
  | .fault _ => none
  | .refused _ => none

/-- What `f` says of the state one cycle after the word `w` stands at PC of `s`. -/
def cycle {α : Type} (w : Nat) (s : State) (f : State → α) : Option α := (stateOf (step (placed w s))).map f

/-- A state that memory-access tests start from: I is `a`. -/
def atI (a : Word) (s : State) : State := s.setI a

/-- V0 to V15 holding 1 to 16 (95_test_vectors.md T18). -/
def counting : State := { State.reset with v := Vector.ofFn (fun k : Fin 16 => BitVec.ofNat 8 (k.val + 1)) }

/-! ## Ill-formed terms -/

/-- One ill-formed assembler line for each check: operand shape, register number, and each field's width. -/
theorem test_ill_formed_lines_are_refused :
    [AsmLine.instr .cls [.v 0], .instr .or [.v 1, .num 2], .instr .ld [.k, .v 1], .instr .jp [.v 1, .num 0x300],
      .instr .ld [.v 16, .num 0], .instr .add [.v 0, .v 16], .instr .ld [.v 1, .num 256], .instr .jp [.num 4096],
      .instr .drw [.v 0, .v 1, .num 16], .db 256, .dw 65536].map AsmLine.wellFormed = List.replicate 11 false := by
  decide

/-- The largest operand of each field is well formed. -/
theorem test_boundary_lines_are_accepted :
    [AsmLine.instr .ld [.v 15, .num 255], .instr .jp [.num 4095], .instr .jp [.v 0, .num 4095],
      .instr .drw [.v 15, .v 15, .num 15], .db 255, .dw 65535].map AsmLine.wellFormed = List.replicate 6 true := by
  decide

/-- An image of one byte too many is refused; the largest image is not (70_reset_and_hazards.md R201). -/
theorem test_image_too_long_is_refused :
    imageFits (List.replicate 3585 0) = false ∧ imageFits (List.replicate 3584 0) = true := by
  simp only [imageFits, List.length_replicate]
  decide

/-- A font of 79 bytes and a font with a low nibble set are refused; the spec's is well formed (10_state.md R31). -/
theorem test_ill_formed_fonts_are_refused :
    Config.wellFormed { params with font := params.font.tail } = false ∧
    Config.wellFormed { params with font := 0xF1 :: params.font.tail } = false ∧
    Config.wellFormed params = true := by
  decide

/-- Fewer than two bytes are no instruction (30_encoding.md R62). -/
theorem test_truncated_bytes_are_refused :
    decodeBytes [0xF3] = (.rejected .truncated, [0xF3]) ∧ decodeBytes [] = (.rejected .truncated, []) := by
  decide

/-! ## Decoding: words written out from the patterns of 30_encoding.md R68 -/

theorem test_decode_family0 :
    decode 0x00E0 = .instr .cls ∧ decode 0x00EE = .instr .ret ∧
    decode 0x03E0 = .instr .cls ∧ decode 0x0FEE = .instr .ret ∧
    decode 0x0000 = .rejected (.unmatchedSelector 0) ∧ decode 0x00E1 = .rejected (.unmatchedSelector 0) := by
  decide

theorem test_decode_jumps_and_calls :
    decode 0x1234 = .instr (.jpNnn 0x234) ∧ decode 0x2ABC = .instr (.callNnn 0xABC) ∧
    decode 0xBFED = .instr (.jpV0Nnn 0xFED) ∧ decode 0xA123 = .instr (.ldINnn 0x123) := by
  decide

theorem test_decode_immediates :
    decode 0x3A05 = .instr (.seVxKk 0xA 0x05) ∧ decode 0x4B16 = .instr (.sneVxKk 0xB 0x16) ∧
    decode 0x6A2B = .instr (.ldVxKk 0xA 0x2B) ∧ decode 0x71FE = .instr (.addVxKk 0x1 0xFE) ∧
    decode 0xC30F = .instr (.rndVxKk 0x3 0x0F) := by
  decide

theorem test_decode_register_skips :
    decode 0x5120 = .instr (.seVxVy 1 2) ∧ decode 0x9AB0 = .instr (.sneVxVy 0xA 0xB) ∧
    decode 0x5127 = .instr (.seVxVy 1 2) ∧ decode 0x9ABF = .instr (.sneVxVy 0xA 0xB) := by
  decide

theorem test_decode_family8 :
    decode 0x8120 = .instr (.ldVxVy 1 2) ∧ decode 0x8341 = .instr (.orVxVy 3 4) ∧
    decode 0x8342 = .instr (.andVxVy 3 4) ∧ decode 0x8343 = .instr (.xorVxVy 3 4) ∧
    decode 0x8124 = .instr (.addVxVy 1 2) ∧ decode 0x8125 = .instr (.subVxVy 1 2) ∧
    decode 0x85A6 = .instr (.shrVx 5) ∧ decode 0x8127 = .instr (.subnVxVy 1 2) ∧
    decode 0x85AE = .instr (.shlVx 5) ∧ decode 0x8128 = .rejected (.unmatchedSelector 8) := by
  decide

theorem test_decode_draw_and_keys :
    decode 0xD123 = .instr (.drwVxVyN 1 2 3) ∧ decode 0xE29E = .instr (.skpVx 2) ∧
    decode 0xE2A1 = .instr (.sknpVx 2) ∧ decode 0xE2A0 = .rejected (.unmatchedSelector 0xE) := by
  decide

theorem test_decode_familyF :
    decode 0xF507 = .instr (.ldVxDt 5) ∧ decode 0xF30A = .instr (.ldVxK 3) ∧
    decode 0xF515 = .instr (.ldDtVx 5) ∧ decode 0xF518 = .instr (.ldStVx 5) ∧
    decode 0xF21E = .instr (.addIVx 2) ∧ decode 0xF329 = .instr (.ldFVx 3) ∧
    decode 0xF433 = .instr (.ldBVx 4) ∧ decode 0xFF55 = .instr (.ldMemVx 0xF) ∧
    decode 0xF565 = .instr (.ldVxMem 5) ∧ decode 0xF375 = .rejected (.unmatchedSelector 0xF) := by
  decide

/-- The encoder on instructions whose words the spec writes out (95_test_vectors.md part 3). -/
theorem test_encode :
    encode (.ldVxKk 0 0x81) = 0x6081 ∧ encode (.callNnn 0x20C) = 0x220C ∧ encode (.shlVx 0) = 0x800E ∧
    encode (.drwVxVyN 1 2 5) = 0xD125 ∧ encode (.ldFVx 0xA) = 0xFA29 ∧ encode .ret = 0x00EE := by
  decide

/-- The bytes of an opcode, high byte first, and the host's numbering of a table word. -/
theorem test_opcode_bytes :
    opcodeBytes 0x8124 = [0x81, 0x24] ∧ opcodeOf 0x81 0x24 = 0x8124 ∧
    decodeTableWord 16 0x8124 = some (.addVxVy 1 2) ∧ decodeTableWord 16 0x812F = none := by
  decide

/-- Lines as 30_encoding.md R72 and 95_test_vectors.md part 3 write them. -/
theorem test_assembler :
    (lineText (listing (.ldVxKk 0xA 0x2B)) = "LD VA,0x2B") ∧
    (lineText (listing (.ldMemVx 2)) = "LD [I],V2") ∧ (lineText (listing (.drwVxVyN 1 2 5)) = "DRW V1,V2,0x5") ∧
    assemble (.instr .ld [.atI, .v 2]) = some [0xF2, 0x55] ∧ assemble (.instr .jp [.num 0x204]) = some [0x12, 0x04] ∧
    assemble (.dw 0x6577) = some [0x65, 0x77] ∧ assemble (.db 0x65) = some [0x65] ∧ assemble (.db 256) = none := by
  decide

/-! ## One cycle; the vectors of 95_test_vectors.md named in each test -/

/-- A1. -/
theorem test_ldVxVy :
    cycle 0x8120 (regs [(2, 0x7B), (15, 1)]) (fun t => (t.reg 1, t.reg 15, t.pc)) = some (0x7B, 1, 0x202) := by decide

/-- A2. -/
theorem test_ldVxVy_into_vf : cycle 0x8F10 (regs [(1, 0x33)]) (fun t => t.reg 15) = some 0x33 := by decide

/-- A3. -/
theorem test_orVxVy :
    cycle 0x8341 (regs [(3, 0xF0), (4, 0x0F), (15, 1)]) (fun t => (t.reg 3, t.reg 15)) = some (0xFF, 1) := by decide

/-- A4. -/
theorem test_andVxVy :
    cycle 0x8342 (regs [(3, 0xF0), (4, 0x3C)]) (fun t => (t.reg 3, t.reg 4)) = some (0x30, 0x3C) := by decide

/-- A5. -/
theorem test_xorVxVy : cycle 0x8343 (regs [(3, 0xF0), (4, 0x3C)]) (fun t => t.reg 3) = some 0xCC := by decide

/-- A6. -/
theorem test_xorVxVx : cycle 0x8333 (regs [(3, 0xA5)]) (fun t => t.reg 3) = some 0 := by decide

/-- S2a. -/
theorem test_addVxVy_carries :
    cycle 0x8124 (regs [(1, 0xFF), (2, 0x01)]) (fun t => (t.reg 1, t.reg 15, t.reg 2)) = some (0, 1, 1) := by decide

/-- A10: X = 15, the result survives (D14). -/
theorem test_addVxVy_into_vf : cycle 0x8F14 (regs [(15, 0xF0), (1, 0x20)]) (fun t => t.reg 15) = some 0x10 := by decide

/-- S3b. -/
theorem test_subVxVy_wraps :
    cycle 0x8125 (regs [(1, 3), (2, 5), (15, 1)]) (fun t => (t.reg 1, t.reg 15)) = some (0xFE, 0) := by decide

/-- A12: equal operands leave VF 0 (90_conflicts.md C3). -/
theorem test_subVxVy_equal :
    cycle 0x8125 (regs [(1, 7), (2, 7), (15, 1)]) (fun t => (t.reg 1, t.reg 15)) = some (0, 0) := by decide

/-- A16. -/
theorem test_subnVxVy :
    cycle 0x8127 (regs [(1, 3), (2, 5)]) (fun t => (t.reg 1, t.reg 15)) = some (2, 1) := by decide

/-- A17. -/
theorem test_subnVxVy_wraps :
    cycle 0x8127 (regs [(1, 5), (2, 3), (15, 1)]) (fun t => (t.reg 1, t.reg 15)) = some (0xFE, 0) := by decide

/-- A20: VY is not read. -/
theorem test_shrVx_ignores_y :
    cycle 0x85A6 (regs [(5, 0xFE), (10, 1)]) (fun t => (t.reg 5, t.reg 15, t.reg 10)) = some (0x7F, 0, 1) := by decide

/-- A22: X = 15 (D14). -/
theorem test_shrVx_of_vf : cycle 0x8F06 (regs [(15, 5)]) (fun t => t.reg 15) = some 2 := by decide

/-- A23. -/
theorem test_shlVx : cycle 0x850E (regs [(5, 0x81)]) (fun t => (t.reg 5, t.reg 15)) = some (2, 1) := by decide

/-- A24. -/
theorem test_shlVx_no_bit_out :
    cycle 0x850E (regs [(5, 0x7F), (15, 1)]) (fun t => (t.reg 5, t.reg 15)) = some (0xFE, 0) := by decide

/-- A27: a no-op word of family 8. -/
theorem test_noOp :
    cycle 0x812F (regs [(1, 0x11), (2, 0x22), (15, 1)]) (fun t => (t.reg 1, t.reg 15, t.pc)) = some (0x11, 1, 0x202) := by
  decide

/-- F1. -/
theorem test_cls :
    cycle 0x00E0 (cells [0, 1000, 2047] (regs [(15, 1)])) (fun t => (t.fb, t.reg 15, t.pc)) =
      some (Vector.replicate 32 0, 1, 0x202) := by decide

/-- F3: a no-op under the byte selector (D2). -/
theorem test_cls_neighbour :
    cycle 0x00F0 (cells [5] State.reset) (fun t => (t.fb.cell 5, t.pc)) = some (true, 0x202) := by decide

/-- F11. -/
theorem test_ret :
    cycle 0x00EE { State.reset with sp := 2, stack := State.reset.stack.set 1 0x0ABC } (fun t => (t.sp, t.pc)) =
      some (1, 0x0ABC) := by decide

/-- F10 and X6: no tick in a faulting cycle. -/
theorem test_ret_underflow :
    cycle 0x00EE { State.reset with dt := 3 } (fun t => (t.faultPort, t.pc, t.dt)) =
      some ((3, 0x200, 0), 0x200, 3) := by decide

/-- F5. -/
theorem test_jpNnn : cycle 0x1234 State.reset (fun t => t.pc) = some 0x234 := by decide

/-- F8: the sixteenth level fits. -/
theorem test_callNnn :
    cycle 0x2300 { State.reset with sp := 15 } (fun t => (t.sp, t.stack[15], t.pc)) = some (16, 0x202, 0x300) := by
  decide

/-- F9. -/
theorem test_callNnn_overflow :
    cycle 0x2300 { State.reset with sp := 16 } (fun t => (t.faultPort, t.sp, t.pc)) =
      some ((2, 0x200, 16), 16, 0x200) := by decide

/-- F12. -/
theorem test_jpV0Nnn : cycle 0xB300 (regs [(0, 4)]) (fun t => t.pc) = some 0x304 := by decide

/-- F13: no 12-bit mask (D24). -/
theorem test_jpV0Nnn_beyond : cycle 0xBFFF (regs [(0, 0xFF)]) (fun t => t.pc) = some 0x10FE := by decide

/-- S5a. -/
theorem test_seVxKk_skips : cycle 0x3A05 (regs [(10, 5)]) (fun t => t.pc) = some 0x204 := by decide

/-- S5b. -/
theorem test_seVxKk_falls : cycle 0x3A05 (regs [(10, 6)]) (fun t => t.pc) = some 0x202 := by decide

/-- F15. -/
theorem test_sneVxKk_skips : cycle 0x4A05 (regs [(10, 6)]) (fun t => t.pc) = some 0x204 := by decide

/-- F14. -/
theorem test_sneVxKk_falls : cycle 0x4A05 (regs [(10, 5)]) (fun t => t.pc) = some 0x202 := by decide

/-- F17: the trailing nibble is ignored (D28). -/
theorem test_seVxVy_skips : cycle 0x5127 (regs [(1, 0x33), (2, 0x33)]) (fun t => t.pc) = some 0x204 := by decide

/-- F18. -/
theorem test_seVxVy_falls : cycle 0x5120 (regs [(1, 0x33), (2, 0x34)]) (fun t => t.pc) = some 0x202 := by decide

/-- F20. -/
theorem test_sneVxVy_skips : cycle 0x9120 (regs [(1, 0x33), (2, 0x34)]) (fun t => t.pc) = some 0x204 := by decide

/-- F21. -/
theorem test_sneVxVy_falls : cycle 0x9120 (regs [(1, 0x33), (2, 0x33)]) (fun t => t.pc) = some 0x202 := by decide

/-- T1. -/
theorem test_ldVxKk : cycle 0x6A2B State.reset (fun t => t.reg 10) = some 0x2B := by decide

/-- T2: wraps, no flag. -/
theorem test_addVxKk : cycle 0x7103 (regs [(1, 0xFE)]) (fun t => (t.reg 1, t.reg 15)) = some (1, 0) := by decide

/-- T3. -/
theorem test_addVxKk_into_vf : cycle 0x7FFF (regs [(15, 1)]) (fun t => t.reg 15) = some 0 := by decide

/-- T5. -/
theorem test_ldINnn : cycle 0xAFFF State.reset (fun t => t.i) = some 0xFFF := by decide

/-- T6: no flag, no fault. -/
theorem test_addIVx :
    cycle 0xF21E (atI 0xFFE (regs [(2, 5)])) (fun t => (t.i, t.reg 15, t.halted)) = some (0x1003, 0, false) := by decide

/-- T7. -/
theorem test_addIVx_wraps : cycle 0xF21E (atI 0xFFFF (regs [(2, 1)])) (fun t => t.i) = some 0 := by decide

/-- T8. -/
theorem test_ldFVx : cycle 0xF329 (regs [(3, 0x0A)]) (fun t => t.i) = some 0x82 := by decide

/-- T10: no mask (D16). -/
theorem test_ldFVx_unmasked : cycle 0xF329 (regs [(3, 0xFF)]) (fun t => t.i) = some 0x54B := by decide

/-- T13: leading zeros are written. -/
theorem test_ldBVx :
    cycle 0xF433 (bytes 0x300 [9, 9, 9] (atI 0x300 (regs [(4, 7)]))) (fun t => (t.mem.readBytes 0x300 3, t.i)) =
      some ([0, 0, 7], 0x300) := by decide

/-- T15: one byte past the end. -/
theorem test_ldBVx_past_the_end :
    cycle 0xF433 (atI 0xFFE (regs [(4, 1)])) (fun t => (t.faultPort, t.mem.readBytes 0xFFE 2, t.pc)) =
      some ((4, 0x200, 0x1000), [0, 0], 0x200) := by decide

/-- S7a: V3 is not stored. -/
theorem test_ldMemVx :
    cycle 0xF355 (atI 0x300 (regs [(0, 1), (1, 2), (2, 3), (3, 9)])) (fun t => (t.mem.readBytes 0x300 4, t.i)) =
      some ([1, 2, 3, 0], 0x300) := by decide

/-- T19: no partial write. -/
theorem test_ldMemVx_past_the_end :
    cycle 0xF255 (atI 0xFFF (regs [(0, 0xAA), (1, 0xBB)])) (fun t => (t.faultPort, t.mem.read 0xFFF)) =
      some ((4, 0x200, 0x1000), 0) := by decide

/-- T22: reads the font (D11). -/
theorem test_ldVxMem :
    cycle 0xF565 (atI 0x50 (regs [(5, 0x77)])) (fun t => t.v.toList.take 6) =
      some [0xF0, 0x90, 0x90, 0x90, 0xF0, 0x77] := by decide

/-- T23. -/
theorem test_ldVxMem_past_the_end :
    cycle 0xF265 (atI 0x1000 State.reset) (fun t => t.faultPort) = some (4, 0x200, 0x1001) := by decide

/-- T25: the mask 0 hides the free byte; the draw is still consumed. -/
theorem test_rndVxKk : cycle 0xC000 (regs [(0, 0xFF)]) (fun t => (t.draws, t.pc)) = some (1, 0x202) := by decide

/-- K1: read before the tick (D13). -/
theorem test_ldVxDt : cycle 0xF507 { State.reset with dt := 0x3C } (fun t => (t.reg 5, t.dt)) = some (0x3C, 0x3B) := by
  decide

/-- K3: loaded, then ticked (D13). -/
theorem test_ldDtVx : cycle 0xF515 (regs [(5, 0x0A)]) (fun t => (t.dt, t.st)) = some (9, 0) := by decide

/-- K5. -/
theorem test_ldStVx : cycle 0xF518 (regs [(5, 2)]) (fun t => (t.st, t.soundTimer, t.dt)) = some (1, 1, 0) := by decide

/-- K7. -/
theorem test_skpVx : cycle 0xE29E (keys [7] (regs [(2, 7)])) (fun t => t.pc) = some 0x204 := by decide

/-- K9: no masking. -/
theorem test_skpVx_unmasked : cycle 0xE29E (keys [7] (regs [(2, 0x17)])) (fun t => t.pc) = some 0x202 := by decide

/-- K11. -/
theorem test_sknpVx : cycle 0xE2A1 (keys [7] (regs [(2, 7)])) (fun t => t.pc) = some 0x202 := by decide

/-- K12. -/
theorem test_sknpVx_unmasked : cycle 0xE2A1 (keys [0, 7] (regs [(2, 0x20)])) (fun t => t.pc) = some 0x204 := by decide

/-- K15: the lowest key. -/
theorem test_ldVxK : cycle 0xF30A (keys [9, 4] State.reset) (fun t => (t.reg 3, t.pc)) = some (4, 0x202) := by decide

/-- K14: waits; the timers run. -/
theorem test_ldVxK_waits :
    cycle 0xF30A { regs [(3, 0x55)] with dt := 3 } (fun t => (t.pc, t.reg 3, t.dt)) = some (0x200, 0x55, 2) := by decide

/-- W1: the right edge spills into the next row (D8, D9). -/
theorem test_drw_right_edge :
    cycle 0xD011 (bytes 0x300 [0xFF] (atI 0x300 (regs [(0, 60)])))
      (fun t => ((List.range 70).filter t.fb.cell, t.reg 15)) = some ([60, 61, 62, 63, 64, 65, 66, 67], 0) := by decide

/-- W2: the bottom edge drops rows; the glyph "0" (D8, D11). -/
theorem test_drw_bottom_edge :
    cycle 0xD015 (atI 0x50 (regs [(1, 30)]))
      (fun t => ((List.range' 1900 148).filter t.fb.cell, t.fb[29], t.fb[0], t.reg 15)) =
      some ([1920, 1921, 1922, 1923, 1984, 1987], 0, 0, 0) := by decide

/-- X5: the last fetch. -/
theorem test_fetch_at_the_last_word :
    cycle 0x6007 { State.reset with pc := 0xFFE } (fun t => (t.reg 0, t.pc)) = some (7, 0x1000) := by decide

/-- X4: no fetch at 0xFFF. -/
theorem test_fetch_past_the_end :
    (stateOf (step { State.reset with pc := 0xFFF })).map (fun t => (t.faultPort, t.pc)) =
      some ((1, 0xFFF, 0xFFF), 0xFFF) := by decide

/-- X3: a halted core does not tick. -/
theorem test_halted_core_does_not_tick :
    (stateOf (step ({ State.reset with pc := 0x1000, dt := 5 }.fetchFault .fault))).map (fun t => (t.dt, t.pc)) =
      some (5, 0x1000) := by decide

/-- K18, its first cycle: both timers. -/
theorem test_timers :
    cycle 0x0000 { State.reset with dt := 2, st := 5 } (fun t => (t.dt, t.st)) = some (1, 4) := by decide

/-- The host's moves and reads (60_exceptions.md R182, R186, R188): the reset keeps the model's count of draws. -/
theorem test_host_boundary :
    (({ State.reset with pc := 0x300, draws := 7 }.hostReset).pc, ({ State.reset with draws := 7 }.hostReset).draws) =
      (0x200, 7) ∧
    (cells [65] State.reset).pixel 1 1 = true ∧ (cells [65] State.reset).pixel 1 0 = false ∧
    ((keys [7] State.reset).setKey 7 false).key[7] = false := by decide

/-! ## Other parameters: the values the spec names for the other reading of each (00_scope.md R4) -/

/-- What `f` says of the state one cycle under a configuration after the word `w` stands at PC of `s`. -/
def cycleUnder {α : Type} (c : Config) (w : Nat) (s : State) (f : State → α) : Option α :=
  (stateOf (stepUnder c (placed w s))).map f

/-- A10: "flag-last would give VF = 0x01". -/
theorem test_vfOrder_resultFirst :
    cycleUnder { params with vfOrder := .resultFirst } 0x8F14 (regs [(15, 0xF0), (1, 0x20)]) (fun t => t.reg 15) =
      some 0x01 := by decide

/-- K1: "tick-first would give V5 = 0x3B". -/
theorem test_timerPhase_before :
    cycleUnder { params with timerPhase := .before } 0xF507 { State.reset with dt := 0x3C } (fun t => t.reg 5) =
      some 0x3B := by decide

/-- 93_implementation_defined.md U2: under a nibble selector 0x00F0 is CLS. -/
theorem test_selWidth_nibble :
    cycleUnder { params with selWidth := .nibble } 0x00F0 (cells [5] State.reset) (fun t => t.fb.cell 5) =
      some false := by decide

/-! ## The end of a run (70_reset_and_hazards.md R206) -/

/-- The end is the first self-jump, with DT as it was there; a smaller limit ends the run before; a fault is no end. -/
theorem test_stateAtEnd :
    (stateAtEnd 5 (bytes 0x200 [0x60, 0x07, 0x12, 0x02] { State.reset with dt := 3 })).map (fun t => (t.pc, t.dt)) =
      some (0x202, 2) ∧
    (stateAtEnd 0 (bytes 0x200 [0x60, 0x07, 0x12, 0x02] State.reset)).map (·.pc) = some 0x200 ∧
    stateAtEnd 5 (placed 0x00EE State.reset) = none := by decide

/-! ## Witnesses: a state and operands that meet the hypotheses of each statement, at the boundary values of its clauses -/

/-- A state whose FAULT says what it is told. -/
def faulted (c : FaultCause) (epc : Word) (info : BitVec 17) (s : State) : State :=
  { s with fault := { cause := c, epc := epc, info := info } }

/-- NoOpWordsAreTheUnmatchedSelectors: a word of each of the four families. -/
theorem witness_NoOpWords :
    decode 0x0FFF = .rejected (.unmatchedSelector 0x0) ∧ decode 0x8008 = .rejected (.unmatchedSelector 0x8) ∧
    decode 0xE09F = .rejected (.unmatchedSelector 0xE) ∧ decode 0xFFFF = .rejected (.unmatchedSelector 0xF) := by
  decide

/-- DecodedWordsAreTheEncodingsUpToIgnoredBits: a word with ignored bits set. -/
theorem witness_DecodedWords :
    decode 0x512F = .instr (.seVxVy 1 2) ∧ 0x512F &&& ~~~ (ignoredBits (.seVxVy 1 2)) = encode (.seVxVy 1 2) := by
  decide

/-- AssemblerAgreesWithEncoder: a line that is well formed and one that is not. -/
theorem witness_Assembler :
    (assemble (.instr .jp [.num 4095])).isSome = true ∧ (assemble (.instr .jp [.num 4096])).isSome = false := by decide

/-- StepRunsTheDecodedInstruction, at reset's PC and at the last PC that can be fetched from. -/
theorem witness_StepRuns :
    (placed 0x6007 State.reset).halted = false ∧ (placed 0x6007 State.reset).pc.toNat ≤ 0xFFE ∧
    decode ((placed 0x6007 State.reset).mem.read 0x200 ++ (placed 0x6007 State.reset).mem.read 0x201) =
      .instr (.ldVxKk 0 7) ∧
    (bytes 0xFFE [0x60, 0x07] { State.reset with pc := 0xFFE }).pc.toNat ≤ 0xFFE ∧
    decode ((bytes 0xFFE [0x60, 0x07] State.reset).mem.read 0xFFE ++
      (bytes 0xFFE [0x60, 0x07] State.reset).mem.read (0xFFE + 1)) = .instr (.ldVxKk 0 7) := by decide

/-- NoOpWordOnlyAdvancesPcAndTicks. -/
theorem witness_NoOpWord :
    State.reset.halted = false ∧ State.reset.pc.toNat ≤ 0xFFE ∧
    decode (State.reset.mem.read State.reset.pc.toNat ++ State.reset.mem.read (State.reset.pc.toNat + 1)) =
      .rejected (.unmatchedSelector 0) := by decide

/-- HaltedCoreNeverChanges. -/
theorem witness_Halted : (faulted .stackUnderflow 0x200 0 State.reset).halted = true := by decide

/-- FetchPastTheEndFaults: the least such PC and the largest word. -/
theorem witness_FetchPastTheEnd :
    ({ State.reset with pc := 0xFFF } : State).halted = false ∧ 0xFFE < ({ State.reset with pc := 0xFFF } : State).pc.toNat ∧
    0xFFE < ({ State.reset with pc := 0xFFFF } : State).pc.toNat := by decide

/-- FetchIsBigEndian: the boundary PC, and a no-op's next state. -/
theorem witness_FetchIsBigEndian :
    ({ State.reset with pc := 0xFFE } : State).pc.toNat ≤ 0xFFE ∧
    decode State.reset.fetch = .rejected (.unmatchedSelector 0) ∧
    step State.reset = .next { State.reset with pc := 0x202 } := by
  refine ⟨by decide, by decide, rfl⟩

/-- FaultingCyclesArePrecise: a RET with an empty stack. -/
theorem witness_FaultingCycles :
    (placed 0x00EE State.reset).halted = false ∧
    step (placed 0x00EE State.reset) = .next (faulted .stackUnderflow 0x200 0 (placed 0x00EE State.reset)) ∧
    (faulted .stackUnderflow 0x200 0 (placed 0x00EE State.reset)).halted = true := by
  refine ⟨by decide, rfl, by decide⟩

/-- FaultsArePreciselyTheFourConditions: one state for each of the four, with the fault its step leaves. -/
theorem witness_FourConditions :
    (stateOf (step { State.reset with pc := 0x1000 })).map (·.fault.cause) = some .fetchOob ∧
    cycle 0x2300 { State.reset with sp := 16 } (·.fault.cause) = some .stackOverflow ∧
    cycle 0x00EE State.reset (·.fault.cause) = some .stackUnderflow ∧
    cycle 0xF255 (atI 0xFFF State.reset) (·.fault.cause) = some .memOob ∧
    cycle 0xF155 (atI 0xFFF State.reset) (·.fault.cause) = some .noFault := by decide

/-- FaultEntriesRecordCauseEpcAndInfo: a full stack, an empty one, and each form that accesses memory one byte too far. -/
theorem witness_FaultEntries :
    ({ State.reset with sp := 16 } : State).sp = 16 ∧ State.reset.sp = 0 ∧
    [Instr.ldMemVx 2, .ldVxMem 2, .drwVxVyN 0 1 2].all
      (fun i => 0 < dataBytes i && 0xFFF < (atI 0xFFF State.reset).i.toNat + dataBytes i - 1) = true ∧
    0 < dataBytes (.ldBVx 4) ∧ 0xFFF < (atI 0xFFE State.reset).i.toNat + dataBytes (.ldBVx 4) - 1 := by decide

/-- TimersCountDownOncePerCycle: a cycle that loads a timer, and one that does not. -/
theorem witness_Timers :
    (placed 0xF515 (regs [(5, 10)])).halted = false ∧
    step (placed 0xF515 (regs [(5, 10)])) =
      .next { placed 0xF515 (regs [(5, 10)]) with dt := 9, pc := 0x202 } ∧
    decode (placed 0xF515 (regs [(5, 10)])).fetch = .instr (.ldDtVx 5) ∧
    step { State.reset with dt := 1 } = .next { State.reset with pc := 0x202 } := by
  refine ⟨by decide, rfl, by decide, rfl⟩

/-- NoCycleWritesTheKeypad, with a key pressed. -/
theorem witness_NoCycleWritesTheKeypad :
    step (keys [7] State.reset) = .next { keys [7] State.reset with pc := 0x202 } ∧
      (keys [7] State.reset).key[7] = true := ⟨rfl, by decide⟩

/-- RegistersChangeOnlyWhereTheInstructionWrites: a step that changes V0. -/
theorem witness_Registers :
    step (placed 0x6007 State.reset) = .next { placed 0x6007 (regs [(0, 7)]) with pc := 0x202 } ∧
      (regs [(0, 7)]).reg 0 ≠ State.reset.reg 0 := ⟨rfl, by decide⟩

/-- IndexRegisterHasThreeWriters: a step of each that changes I. -/
theorem witness_IndexRegister :
    cycle 0xA300 State.reset (·.i) = some 0x300 ∧ cycle 0xF21E (regs [(2, 1)]) (·.i) = some 1 ∧
    cycle 0xF329 State.reset (·.i) = some 0x50 ∧ State.reset.i = 0 := by decide

/-- StackIsReachedByCallAndRetAlone: a CALL that changes a slot and SP, a RET that changes SP. -/
theorem witness_Stack :
    cycle 0x2300 State.reset (fun t => (t.sp, t.stack[0], t.stack[1])) = some (1, 0x202, 0) ∧
    cycle 0x00EE { State.reset with sp := 1 } (·.sp) = some 0 := by decide

/-- FramebufferHasTwoWriters: a step of each that changes a cell. -/
theorem witness_Framebuffer :
    cycle 0x00E0 (cells [5] State.reset) (·.fb.cell 5) = some false ∧ (cells [5] State.reset).fb.cell 5 = true ∧
    cycle 0xD011 (atI 0x50 State.reset) (·.fb.cell 0) = some true ∧ State.reset.fb.cell 0 = false := by decide

/-- MemoryHasTwoWriters: a step of each that changes a byte. -/
theorem witness_MemoryWriters :
    cycle 0xF155 (atI 0xFFF (regs [(0, 0xAA)])) (·.mem.read 0xFFF) = some 0xAA ∧ State.reset.mem.read 0xFFF = 0 ∧
    cycle 0xF433 (atI 0xFFD (regs [(4, 1)])) (·.mem.read 0xFFF) = some 1 := by decide

/-- OneRandomByteIsDrawnForEachRnd: a cycle that draws and one that does not. -/
theorem witness_OneRandomByte :
    (placed 0xC0FF State.reset).halted = false ∧ (placed 0xC0FF State.reset).pc.toNat ≤ 0xFFE ∧
    (stateOf (step (placed 0xC0FF State.reset))).isSome = true ∧
    cycle 0xC0FF State.reset (·.draws) = some 1 ∧ cycle 0x6007 State.reset (·.draws) = some 0 := by decide

/-- EveryCycleKeepsTheInvariant: the reset state steps; so does a state at the highest PC, which faults. -/
theorem witness_Invariant :
    State.reset.Inv ∧ step State.reset = .next { State.reset with pc := 0x202 } ∧
    State.Inv { State.reset with pc := 0x10FE } ∧
    step { State.reset with pc := 0x10FE } =
      .next (faulted .fetchOob 0x10FE 0x10FE { State.reset with pc := 0x10FE }) := by
  refine ⟨⟨by decide, by decide, by decide, rfl, rfl⟩, rfl, ⟨by decide, by decide, by decide, rfl, rfl⟩, rfl⟩

/-- MemWriteSetsOneByte: the last address, and a memory that lists a byte. -/
theorem witness_MemWrite :
    Memory.wf [] ∧ Memory.wf [(0x50, 0x00), (0x300, 0x12)] ∧ (atI 0xFFF State.reset).i.toNat = 0xFFF ∧ 0xFFF ≤ 0xFFF ∧
    ({ State.reset with pc := 0xFFE } : State).pc.toNat = 0xFFE ∧ Memory.write [(0x300, 0x12)] 0x300 0 = [] := by decide

/-- CanonicalMemoriesThatReadAlikeAreEqual: a memory written directly, and by way of another value. -/
theorem witness_Canonical :
    Memory.wf [(0x300, 0x12)] ∧ Memory.wf (((Memory.write [] 0x300 0x34).write 0x301 7).write 0x300 0x12 |>.write 0x301 0) ∧
    ∀ a, Memory.read [(0x300, 0x12)] a =
      (((Memory.write [] 0x300 0x34).write 0x301 7).write 0x300 0x12 |>.write 0x301 0).read a :=
  ⟨by decide, by decide, fun _ => rfl⟩

/-- PlacedWordIsFetched, at the last PC that can be fetched from. -/
theorem witness_Placed :
    State.reset.mem.wf ∧ State.reset.pc.toNat ≤ 0xFFE ∧ ({ State.reset with pc := 0xFFE } : State).pc.toNat ≤ 0xFFE := by
  decide

/-- ProgramLoadWritesTheImageVerbatim: the longest image, the shortest that is refused, and a small one. -/
theorem witness_ProgramLoad :
    State.reset.mem.wf ∧ (List.replicate 3584 (0 : Byte)).length ≤ 3584 ∧
    3584 < (List.replicate 3585 (0 : Byte)).length ∧
    (State.reset.loadProgram [0x60, 0x01]).map (·.mem) = some [(0x200, 0x60), (0x201, 0x01)] := by
  simp only [List.length_replicate]
  decide

/-- EndOfRunIsKept: the self-jump at reset's PC (95_test_vectors.md F6); a run that ends there, one that the limit ends, and
one that is halted. -/
theorem witness_EndOfRun :
    atEndOfRun (placed 0x1200 State.reset) = true ∧
    stateAtEnd 5 (placed 0x1200 { State.reset with dt := 3 }) = some (placed 0x1200 { State.reset with dt := 3 }) ∧
    stateAtEnd 0 State.reset = some State.reset ∧ atEndOfRun State.reset = false ∧
    stateAtEnd 0 (faulted .stackUnderflow 0x200 0 State.reset) = none := by decide

/-- CycleAndResetUnderEveryConfiguration: a configuration that is not the spec's, whose cycle faults; the first and the last
byte of the font, and those beside it. -/
theorem witness_EveryConfiguration :
    ({ params with timerPhase := .before, bcdOrder := .onesFirst } : Config).oobPolicy = .fault ∧
    (placed 0x00EE { State.reset with dt := 3 }).halted = false ∧
    stepUnder { params with timerPhase := .before, bcdOrder := .onesFirst } (placed 0x00EE { State.reset with dt := 3 }) =
      .next (faulted .stackUnderflow 0x200 0 (placed 0x00EE { State.reset with dt := 3 })) ∧
    [0x04F, 0x050, 0x09F, 0x0A0, 0xFFF].map (Memory.initialUnder { params with font := List.replicate 80 0xF0 }) =
      [0, 0xF0, 0xF0, 0, 0] :=
  ⟨by decide, by decide, rfl, by decide⟩

/-- The ALU statements' clauses on X and on the other registers. -/
theorem witness_Alu : (1 : Reg) ≠ 15 ∧ (2 : Reg) ≠ 1 ∧ (2 : Reg) ≠ 15 := by decide

/-- CallPushesTheReturnAddress and RetAfterCallComesBack: the last free slot; another slot than the one written. -/
theorem witness_Call :
    ({ State.reset with sp := 15 } : State).sp.val < 16 ∧ (14 : Fin 16).val ≠ ({ State.reset with sp := 15 } : State).sp.val := by
  decide

/-- RetPopsTheReturnAddress: one return address, and a full stack. -/
theorem witness_Ret :
    0 < ({ State.reset with sp := 1 } : State).sp.val ∧ 0 < ({ State.reset with sp := 16 } : State).sp.val := by decide

/-- DumpStoresTheRegistersBelowX, LoadReadsTheRegistersBelowX, LoadAfterDumpRestores: no byte from anywhere, and the last
byte of memory. -/
theorem witness_DumpAndLoad :
    State.reset.mem.wf ∧ (0 : Reg).val = 0 ∧ (atI 0xFFF State.reset).i.toNat + (1 : Reg).val - 1 ≤ 0xFFF ∧
    (0 : Reg) < 1 ∧ (atI 0x400 counting).i.toNat + (15 : Reg).val - 1 ≤ 0xFFF := by decide

/-- BcdStoresThreeDigits: the last place for three digits. -/
theorem witness_Bcd : State.reset.mem.wf ∧ (atI 0xFFD State.reset).i.toNat + 2 ≤ 0xFFF := by decide

/-- SkipIfEqualToImmediate: a word of the family, and one of another. -/
theorem witness_SkipIfEqual :
    (0x3A05 : Word) &&& 0xF000 = 0x3000 ∧ decode 0x3A05 = .instr (.seVxKk 0xA 0x05) ∧ ¬ (0x4A05 : Word) &&& 0xF000 = 0x3000 := by
  decide

/-- PressedReadsTheKeypad: the last key number and the first that is none, the key itself and another, and a cycle. -/
theorem witness_Pressed :
    (keys [15] State.reset).pressed 15 = true ∧ (keys [0, 15] State.reset).pressed 16 = false ∧
    (15 : Byte).toNat = (15 : Fin 16).val ∧ (16 : Byte).toNat ≠ (0 : Fin 16).val ∧
    step (keys [15] State.reset) = .next { keys [15] State.reset with pc := 0x202 } :=
  ⟨by decide, by decide, by decide, by decide, rfl⟩

/-- SkpSkipsOnAPressedKey and SknpSkipsUnlessThePressedKey: where the two clauses meet. -/
theorem witness_KeySkips : 16 ≤ (regs [(2, 16)]).v[2].toNat ∧ (regs [(2, 15)]).v[2].toNat < 16 := by decide

/-- KeyWaitTakesTheLeastKeyOrStays: the last key alone, a key below another, and no key. -/
theorem witness_KeyWait :
    (keys [15] State.reset).key[15] = true ∧ (∀ j : Fin 16, j < 15 → (keys [15] State.reset).key[j] = false) ∧
    (keys [9, 4] State.reset).key[4] = true ∧ (∀ j : Fin 16, j < 4 → (keys [9, 4] State.reset).key[j] = false) ∧
    ∀ k : Fin 16, State.reset.key[k] = false := by decide

/-- The draw statements: no row from anywhere, the last byte of memory, and a sprite pixel on a cell that is on or off. -/
theorem witness_Draw :
    (0 : Nibble) = 0 ∧ (atI 0xFFF State.reset).i.toNat + (1 : Nibble).toNat - 1 ≤ 0xFFF ∧ (0 : Reg) ≠ 15 ∧
    (cells [3] (atI 0x50 State.reset)).fb.cell 3 = true ∧ State.reset.fb.cell 3 = false ∧
    spriteCovers (cells [3] (atI 0x50 State.reset)) 0 0 5 3 :=
  ⟨by decide, by decide, by decide, by decide, by decide, 0, by decide, 3, by decide, by decide, by decide⟩

/-- The draw statements' other collision clause: a zero sprite row covers no cell. -/
theorem witness_DrawNoCollision : ¬ ∃ c < 2048, State.reset.fb.cell c = true ∧ spriteCovers State.reset 0 0 1 c := by
  rintro ⟨c, -, -, r, hr, k, hk, hbit, -⟩
  obtain rfl : r = 0 := by omega
  rw [show State.reset.mem.read (State.reset.i.toNat + 0) = 0 by decide] at hbit
  simp at hbit

end Sys2Proof.Tests
end

section
/-! PROOFS. The stream decoder and the fields of a word (30_encoding.md R62, R63). -/

namespace Sys2Proof

@[simp] theorem decodeBytes_cons_cons (hi lo : Byte) (rest : List Byte) :
    decodeBytes (hi :: lo :: rest) = (decode (opcodeOf hi lo), rest) := rfl

@[simp] theorem decodeBytes_singleton (b : Byte) : decodeBytes [b] = (.rejected .truncated, [b]) := rfl

@[simp] theorem decodeBytes_nil : decodeBytes [] = (.rejected .truncated, []) := rfl

@[simp] theorem length_opcodeBytes (w : Word) : (opcodeBytes w).length = 2 := rfl

/-- Settles O5: the three shapes of a stream, and the length of an encoding's bytes. -/
theorem everyInstructionIsTwoBytes : Obligations.EveryInstructionIsTwoBytes :=
  ⟨decodeBytes_cons_cons, decodeBytes_singleton, decodeBytes_nil, fun i => length_opcodeBytes (encode i)⟩

/-- Y and N are the two halves of KK (30_encoding.md R63). -/
theorem formatXyn_eq_formatXk (op : Nibble) (x y : Reg) (n : Nibble) :
    formatXyn op x y n = formatXk op x (regField y ++ n) :=
  BitVec.append_assoc

/-- X and KK together are NNN (30_encoding.md R63). -/
theorem formatXk_eq_formatA (op : Nibble) (x : Reg) (kk : Byte) : formatXk op x kk = formatA op (regField x ++ kk) :=
  BitVec.append_assoc

/-- X, Y and N together are NNN (30_encoding.md R63). -/
theorem formatXyn_eq_formatA (op : Nibble) (x y : Reg) (n : Nibble) :
    formatXyn op x y n = formatA op (regField x ++ regField y ++ n) := by
  rw [formatXyn_eq_formatXk, formatXk_eq_formatA]
  exact congrArg (formatA op) (BitVec.append_assoc (x₁ := regField x) (x₂ := regField y) (x₃ := n)).symm

@[simp] theorem fieldOp_formatA (op : Nibble) (nnn : Addr12) : fieldOp (formatA op nnn) = op :=
  BitVec.extractLsb'_append_eq_left

@[simp] theorem fieldOp_formatXyn (op : Nibble) (x y : Reg) (n : Nibble) : fieldOp (formatXyn op x y n) = op := by
  rw [formatXyn_eq_formatA, fieldOp_formatA]

@[simp] theorem fieldKk_formatXyn (op : Nibble) (x y : Reg) (n : Nibble) :
    fieldKk (formatXyn op x y n) = regField y ++ n := by
  rw [formatXyn_eq_formatXk, fieldKk_formatXk]

@[simp] theorem fieldNnn_formatXyn (op : Nibble) (x y : Reg) (n : Nibble) :
    fieldNnn (formatXyn op x y n) = regField x ++ regField y ++ n := by
  rw [formatXyn_eq_formatA, fieldNnn_formatA]

/-- Four nibbles in a row are format XYN: a register field's nibble and its register number are the same bits. -/
theorem append_nibbles_eq_formatXyn (op x y n : Nibble) : op ++ x ++ y ++ n = formatXyn op x.toFin y.toFin n := rfl

/-- Settles O6: the word is format XYN, whose fields are known. -/
theorem fieldsAreTheBitsTheSpecNames : Obligations.FieldsAreTheBitsTheSpecNames := by
  intro op x y n
  rw [append_nibbles_eq_formatXyn]
  exact ⟨fieldOp_formatXyn .., congrArg Fin.val (fieldX_formatXyn ..), congrArg Fin.val (fieldY_formatXyn ..),
    fieldN_formatXyn .., fieldKk_formatXyn .., fieldNnn_formatXyn ..⟩

end Sys2Proof
end

section
/-! PROOFS. The fetch (30_encoding.md R61): the word of two bytes, and a cycle that only fetches. -/

namespace Sys2Proof

/-- The high byte of an opcode is the one at the lower address (20_memory.md R41). -/
@[simp] theorem extractLsb'_high_opcodeOf (hi lo : Byte) : (opcodeOf hi lo).extractLsb' 8 8 = hi :=
  BitVec.extractLsb'_append_eq_left

/-- The low byte of an opcode is the one at the higher address (20_memory.md R41). -/
@[simp] theorem extractLsb'_low_opcodeOf (hi lo : Byte) : (opcodeOf hi lo).extractLsb' 0 8 = lo :=
  BitVec.extractLsb'_append_eq_right

/-- An opcode in numbers (20_memory.md R41). -/
theorem toNat_opcodeOf (hi lo : Byte) : (opcodeOf hi lo).toNat = 256 * hi.toNat + lo.toNat := by
  calc (opcodeOf hi lo).toNat = hi.toNat <<< 8 ||| lo.toNat := BitVec.toNat_append hi lo
    _ = hi.toNat <<< 8 + lo.toNat := (Nat.shiftLeft_add_eq_or_of_lt lo.isLt _).symm
    _ = 256 * hi.toNat + lo.toNat := by rw [Nat.shiftLeft_eq, Nat.mul_comm]

namespace Machine

/-- A cycle that fetches a no-op word leaves memory as it was: so do the halted cycle, FETCH_OOB and the tick. -/
theorem step_mem_of_rejected {s t : State} {e : DecodeError} (hd : decode s.fetch = .rejected e)
    (h : step s = .next t) : t.mem = s.mem := by
  obtain ⟨-, rfl⟩ | ⟨-, -, rfl⟩ | ⟨-, -, u, hu, rfl⟩ := step_cases s t h
  · rfl
  · simp
  · obtain ⟨i, hi, -⟩ | ⟨-, -, rfl⟩ := execute_cases s.fetch s u hu
    · simp [hd] at hi
    · split <;> simp

/-- Settles O12: the fetched word is an opcode of two bytes, at every PC, and its bytes are known. -/
theorem fetchIsBigEndian : Obligations.FetchIsBigEndian := by
  intro s _
  exact ⟨rfl, toNat_opcodeOf .., extractLsb'_high_opcodeOf .., extractLsb'_low_opcodeOf ..,
    fun _ _ => step_mem_of_rejected⟩

end Machine

end Sys2Proof
end

section
/-! PROOFS. The skip on equality with an immediate (41_control_flow.md R106) and its words (30_encoding.md R68). -/

namespace Sys2Proof

/-- Every row of the map looks at the whole leading nibble (30_encoding.md R66). -/
theorem mask_family : ∀ r ∈ opcodeTable .byte, r.mask &&& 0xF000 = 0xF000 := by decide

/-- A row builds, from any word, an instruction of the row's own family (30_encoding.md R66, R68). -/
theorem encode_build_family (w : Word) :
    ∀ r ∈ opcodeTable .byte, encode (r.build w) &&& 0xF000 = r.bits &&& 0xF000 := by
  simp only [opcodeTable, family0Rows, singleRows, family8Rows, familyERows, familyFRows, selectorRow, selectorMask,
    List.cons_append, List.nil_append, List.forall_mem_cons, List.not_mem_nil, false_implies, implies_true,
    encode, formatA_family, formatXk_family, formatXyn_family]
  decide

/-- A word's leading nibble is that of the instruction it decodes to (30_encoding.md R66). -/
theorem family_of_decode {w : Word} {i : Instr} (h : decode w = .instr i) : w &&& 0xF000 = encode i &&& 0xF000 := by
  obtain ⟨r, hr, hw, hd⟩ | ⟨-, hd⟩ := decode_cases w
  · obtain rfl : r.build w = i := by simpa [hd] using h
    have hbits : w &&& r.mask = r.bits := by simpa [OpcodeRow.hits] using hw
    rw [encode_build_family w r hr, ← hbits, BitVec.and_assoc, mask_family r hr]
  · simp [hd] at h

/-- The words of SE VX,KK are those of pattern 3XKK (30_encoding.md R68). -/
theorem decode_eq_seVxKk_iff (w : Word) :
    decode w = .instr (.seVxKk (fieldX w) (fieldKk w)) ↔ w &&& 0xF000 = 0x3000 := by
  constructor
  · intro h
    calc w &&& 0xF000 = formatXk 0x3 (fieldX w) (fieldKk w) &&& 0xF000 := family_of_decode h
      _ = formatXk 0x3 0 0 := formatXk_family ..
      _ = 0x3000 := by decide
  · intro h
    have hr : (⟨0xF000, 0x3000, fun w => .seVxKk (fieldX w) (fieldKk w)⟩ : OpcodeRow) ∈ opcodeTable .byte :=
      Laws.EncodingRow.mem_map _ (.inr (.inl (by simp [singleRows])))
    exact decode_of_row hr (by simpa [OpcodeRow.hits] using h)

namespace Machine

/-- The fetch and `Skip(cond)` together change PC alone, by 4 or by 2 (41_control_flow.md R105). -/
theorem State.advance_skipIf (s : State) (c : Bool) :
    s.advance.skipIf c = { s with pc := s.pc + (if c then 4 else 2) } := by
  cases c with
  | false => rfl
  | true =>
    have hpc : s.pc + 2 + 2 = s.pc + 4 := BitVec.add_assoc ..
    exact congrArg s.setPc hpc

/-- SE VX,KK advances PC by 4 when VX is KK and by 2 otherwise (41_control_flow.md R106). -/
theorem exec_seVxKk (x : Reg) (kk : Byte) (s : State) :
    exec (.seVxKk x kk) s = .next { s with pc := s.pc + (if s.v[x] = kk then 4 else 2) } := by
  have hexec : exec (.seVxKk x kk) s = .next (s.advance.skipIf (s.v[x] == kk)) := rfl
  simp only [hexec, State.advance_skipIf, beq_iff_eq]

/-- Settles O40: the skip's end state, and the words that the row 3XKK hits. -/
theorem skipIfEqualToImmediate : Obligations.SkipIfEqualToImmediate :=
  ⟨exec_seVxKk, fun w => (decode_eq_seVxKk_iff w).symm⟩

end Machine

end Sys2Proof
end

section
/-! PROOFS. The keypad (43_timer_peripheral.md R143): what a key test reads, and that only the host writes it. -/

namespace Sys2Proof.Machine

/-- A key test after the host's key write reads the written flag (60_exceptions.md R182). -/
theorem State.pressed_setKey (s : State) (k : Fin 16) (down : Bool) (b : Byte) :
    (s.setKey k down).pressed b = if b.toNat = k.val then down else s.pressed b := by
  by_cases hb : b.toNat < 16
  · simp [State.pressed, hb, Vector.getElem_set, eq_comm]
  · have hk : b.toNat ≠ k.val := by omega
    simp [State.pressed, hb, hk]

/-- A key test depends on KEY alone. -/
theorem State.pressed_congr {s t : State} (h : t.key = s.key) (b : Byte) : t.pressed b = s.pressed b := by
  simp only [State.pressed, h]

/-- An I-relative access leaves the keypad alone, when its end does. -/
theorem State.access_key {s t u : State} {len : Nat} (h : s.access .fault len t = .next u) (ht : t.key = s.key) :
    u.key = s.key := by
  obtain ⟨-, rfl⟩ | ⟨-, rfl⟩ := State.access_cases s t u len h
  · rfl
  · exact ht

/-- CALL leaves the keypad alone, overflowing or not. -/
theorem State.call_key {s u : State} {target : Word} (h : State.call s s.advance .fault target = .next u) :
    u.key = s.key := by
  obtain ⟨-, rfl⟩ | ⟨-, rfl⟩ := State.call_cases s s.advance u target h <;> rfl

/-- RET leaves the keypad alone, underflowing or not. -/
theorem State.ret_key {s u : State} (h : State.ret s s.advance .fault = .next u) : u.key = s.key := by
  obtain ⟨-, rfl⟩ | ⟨-, rfl⟩ := State.ret_cases s s.advance u h <;> rfl

/-- Waiting for a key does not consume it (43_timer_peripheral.md R146). -/
theorem execLdVxK_key {x : Reg} {s t : State} (h : execLdVxK x s = .next t) : t.key = s.key := by
  unfold execLdVxK at h
  split at h <;> obtain rfl := Host.Outcome.next.inj h <;> rfl

/-- No instruction writes the keypad (10_state.md R19). -/
theorem exec_key {i : Instr} {s t : State} (h : exec i s = .next t) : t.key = s.key := by
  cases i with
  | ret => exact State.ret_key h
  | callNnn => exact State.call_key h
  | ldBVx | ldMemVx | ldVxMem | drwVxVyN => exact State.access_key h rfl
  | ldVxK => exact execLdVxK_key h
  | seVxKk | sneVxKk | seVxVy | sneVxVy | skpVx | sknpVx =>
    obtain rfl := Host.Outcome.next.inj h
    exact State.skipIf_key ..
  | _ =>
    obtain rfl := Host.Outcome.next.inj h
    rfl

/-- No cycle writes the keypad: neither the routine, a fault, nor the timers' tick (10_state.md R19). -/
theorem step_key {s t : State} (h : step s = .next t) : t.key = s.key := by
  obtain ⟨-, rfl⟩ | ⟨-, -, rfl⟩ | ⟨-, -, u, hu, rfl⟩ := step_cases s t h
  · rfl
  · rfl
  · have hkey : u.key = s.key := by
      obtain ⟨i, -, hi⟩ | ⟨-, -, rfl⟩ := execute_cases s.fetch s u hu
      · exact exec_key hi
      · rfl
    split <;> exact hkey

/-- Settles O53: what a key test reads, after the host's write and across a cycle, which keeps KEY. -/
theorem pressedReadsTheKeypad : Obligations.PressedReadsTheKeypad :=
  fun s _ b => ⟨s.pressed_eq_true_iff b, fun k down => s.pressed_setKey k down b,
    fun h => State.pressed_congr (step_key h) b⟩

end Sys2Proof.Machine
end

section
/-! PROOFS. Decoding: the words of an instruction and the words of none (30_encoding.md R66 to R70). -/

namespace Sys2Proof

/-- Every instruction's word is a word of its own row (30_encoding.md R68), by the row of each. -/
theorem encodingRow (i : Instr) : Laws.EncodingRow.Statement i := by
  cases i with
  | cls => exact Laws.EncodingRow.cls
  | ret => exact Laws.EncodingRow.ret
  | jpNnn nnn => exact Laws.EncodingRow.jpNnn nnn
  | callNnn nnn => exact Laws.EncodingRow.callNnn nnn
  | seVxKk x kk => exact Laws.EncodingRow.seVxKk x kk
  | sneVxKk x kk => exact Laws.EncodingRow.sneVxKk x kk
  | seVxVy x y => exact Laws.EncodingRow.seVxVy x y
  | ldVxKk x kk => exact Laws.EncodingRow.ldVxKk x kk
  | addVxKk x kk => exact Laws.EncodingRow.addVxKk x kk
  | ldVxVy x y => exact Laws.EncodingRow.ldVxVy x y
  | orVxVy x y => exact Laws.EncodingRow.orVxVy x y
  | andVxVy x y => exact Laws.EncodingRow.andVxVy x y
  | xorVxVy x y => exact Laws.EncodingRow.xorVxVy x y
  | addVxVy x y => exact Laws.EncodingRow.addVxVy x y
  | subVxVy x y => exact Laws.EncodingRow.subVxVy x y
  | shrVx x => exact Laws.EncodingRow.shrVx x
  | subnVxVy x y => exact Laws.EncodingRow.subnVxVy x y
  | shlVx x => exact Laws.EncodingRow.shlVx x
  | sneVxVy x y => exact Laws.EncodingRow.sneVxVy x y
  | ldINnn nnn => exact Laws.EncodingRow.ldINnn nnn
  | jpV0Nnn nnn => exact Laws.EncodingRow.jpV0Nnn nnn
  | rndVxKk x kk => exact Laws.EncodingRow.rndVxKk x kk
  | drwVxVyN x y n => exact Laws.EncodingRow.drwVxVyN x y n
  | skpVx x => exact Laws.EncodingRow.skpVx x
  | sknpVx x => exact Laws.EncodingRow.sknpVx x
  | ldVxDt x => exact Laws.EncodingRow.ldVxDt x
  | ldVxK x => exact Laws.EncodingRow.ldVxK x
  | ldDtVx x => exact Laws.EncodingRow.ldDtVx x
  | ldStVx x => exact Laws.EncodingRow.ldStVx x
  | addIVx x => exact Laws.EncodingRow.addIVx x
  | ldFVx x => exact Laws.EncodingRow.ldFVx x
  | ldBVx x => exact Laws.EncodingRow.ldBVx x
  | ldMemVx x => exact Laws.EncodingRow.ldMemVx x
  | ldVxMem x => exact Laws.EncodingRow.ldVxMem x

/-- Settles O1: the row of an instruction hits its word, and the map is unambiguous. -/
theorem decodeOfEncodeIsTheInstruction : Obligations.DecodeOfEncodeIsTheInstruction := by
  intro i
  obtain ⟨r, hr, hits, hbuild⟩ := encodingRow i
  rw [decode_of_row hr hits, hbuild]

/-- Different instructions have different words. -/
theorem encode_injective : Function.Injective encode := by
  intro i j h
  have hi := decodeOfEncodeIsTheInstruction i
  rw [h, decodeOfEncodeIsTheInstruction j] at hi
  exact (Decoded.instr.inj hi).symm

end Sys2Proof
end

section
/-! PROOFS. The words of an instruction and the words of none, through the fields that the masks of the map test
(30_encoding.md R66 to R70). -/

namespace Sys2Proof

/-- The leading nibble of a number, for the bits of a row. -/
theorem fieldOp_ofNat (n : Nat) : fieldOp (BitVec.ofNat 16 n) = BitVec.ofNat 4 (n % 2 ^ 16 / 2 ^ 12) :=
  BitVec.eq_of_toNat_eq (by simp [fieldOp, Nat.shiftRight_eq_div_pow])

/-- The trailing byte of a number, for the bits of a row. -/
theorem fieldKk_ofNat (n : Nat) : fieldKk (BitVec.ofNat 16 n) = BitVec.ofNat 8 (n % 2 ^ 8) :=
  BitVec.eq_of_toNat_eq (by simp [fieldKk])

/-- The trailing nibble of a number, for the bits of a row. -/
theorem fieldN_ofNat (n : Nat) : fieldN (BitVec.ofNat 16 n) = BitVec.ofNat 4 (n % 2 ^ 4) :=
  BitVec.eq_of_toNat_eq (by simp [fieldN])

/-- The family mask tests the leading nibble. -/
theorem and_family_eq_iff (w bits : Word) (hb : formatA (fieldOp bits) 0 = bits) :
    w &&& 0xF000#16 = bits ↔ fieldOp w = fieldOp bits := by
  constructor
  · rintro rfl
    rw [← formatA_fields w, show (0xF000#16 : Word) = 0xF000 from rfl, formatA_family, fieldOp_formatA, fieldOp_formatA]
  · intro h
    rw [← hb, ← h, ← formatA_family _ (fieldNnn w), formatA_fields]
    rfl

@[simp] theorem fieldOp_formatXk (op : Nibble) (x : Reg) (kk : Byte) : fieldOp (formatXk op x kk) = op := by
  rw [formatXk_eq_formatA, fieldOp_formatA]

/-- The byte selector mask tests the leading nibble and the trailing byte. -/
theorem and_byteSelector_eq_iff (w bits : Word) (hb : formatXk (fieldOp bits) 0 (fieldKk bits) = bits) :
    w &&& 0xF0FF#16 = bits ↔ fieldOp w = fieldOp bits ∧ fieldKk w = fieldKk bits := by
  have hw : w &&& 0xF0FF#16 = formatXk (fieldOp w) 0 (fieldKk w) := by
    rw [← formatXk_selector _ (fieldX w), formatXk_fields]
    rfl
  constructor
  · rintro rfl
    simp [hw]
  · rintro ⟨hop, hkk⟩
    rw [hw, hop, hkk, hb]

/-- The nibble selector mask tests the leading and the trailing nibble. -/
theorem and_nibbleSelector_eq_iff (w bits : Word) (hb : formatXyn (fieldOp bits) 0 0 (fieldN bits) = bits) :
    w &&& 0xF00F#16 = bits ↔ fieldOp w = fieldOp bits ∧ fieldN w = fieldN bits := by
  have hw : w &&& 0xF00F#16 = formatXyn (fieldOp w) 0 0 (fieldN w) := by
    rw [← formatXyn_selector _ (fieldX w) (fieldY w), formatXyn_fields]
    rfl
  constructor
  · rintro rfl
    simp [hw]
  · rintro ⟨hop, hn⟩
    rw [hw, hop, hn, hb]

section
variable {w : Word} {op n : Nibble} {kk : Byte}

theorem formatA_of_fieldOp (h : fieldOp w = op) : formatA op (fieldNnn w) = w := by
  rw [← h, formatA_fields]

theorem formatXk_of_fieldOp (h : fieldOp w = op) : formatXk op (fieldX w) (fieldKk w) = w := by
  rw [← h, formatXk_fields]

theorem formatXk_of_byteSelector (h : fieldOp w = op ∧ fieldKk w = kk) : formatXk op (fieldX w) kk = w := by
  rw [← h.1, ← h.2, formatXk_fields]

theorem formatXyn_of_fieldOp (h : fieldOp w = op) : formatXyn op (fieldX w) (fieldY w) (fieldN w) = w := by
  rw [← h, formatXyn_fields]

theorem formatXyn_of_nibbleSelector (h : fieldOp w = op ∧ fieldN w = n) :
    formatXyn op (fieldX w) (fieldY w) n = w := by
  rw [← h.1, ← h.2, formatXyn_fields]

/-- The trailing nibble of families 5 and 9 is ignored (30_encoding.md R66, D28). -/
theorem formatXyn_of_fieldOp_ignoring_n (h : fieldOp w = op) :
    formatXyn op (fieldX w) (fieldY w) 0#4 = w &&& ~~~ 0x000F#16 := by
  conv_rhs => rw [← formatXyn_of_fieldOp h]
  refine BitVec.eq_of_getLsbD_eq fun k hk => ?_
  rw [BitVec.getLsbD_and, getLsbD_formatXyn, getLsbD_formatXyn]
  interval_cases k <;> simp

/-- The Y field of the shifts is ignored (30_encoding.md R70). -/
theorem formatXyn_of_nibbleSelector_ignoring_y (h : fieldOp w = op ∧ fieldN w = n) :
    formatXyn op (fieldX w) 0 n = w &&& ~~~ 0x00F0#16 := by
  conv_rhs => rw [← formatXyn_of_nibbleSelector h]
  refine BitVec.eq_of_getLsbD_eq fun k hk => ?_
  rw [BitVec.getLsbD_and, getLsbD_formatXyn, getLsbD_formatXyn]
  interval_cases k <;> simp [regField]

/-- The X field of family 0 is ignored (30_encoding.md R67, R70). -/
theorem formatZ_of_byteSelector (h : fieldOp w = 0 ∧ fieldKk w = kk) : formatZ kk = w &&& ~~~ 0x0F00#16 := by
  conv_rhs => rw [← formatXk_of_byteSelector h]
  refine BitVec.eq_of_getLsbD_eq fun k hk => ?_
  rw [BitVec.getLsbD_and, getLsbD_formatXk, show formatZ kk = formatXk 0 0 kk from rfl, getLsbD_formatXk]
  interval_cases k <;> simp [regField]

end

/-- A row builds, from a word that it hits, the instruction whose encoding is that word with the ignored bits cleared. -/
theorem encode_build_of_hits (w : Word) : ∀ r ∈ opcodeTable .byte, r.hits w = true →
    encode (r.build w) = w &&& ~~~ (ignoredBits (r.build w)) := by
  simp (disch := decide) only [opcodeTable, family0Rows, singleRows, family8Rows, familyERows, familyFRows, selectorRow,
    selectorMask, List.cons_append, List.nil_append, List.forall_mem_cons, List.not_mem_nil, false_implies, implies_true,
    OpcodeRow.hits, beq_iff_eq, and_family_eq_iff, and_byteSelector_eq_iff, and_nibbleSelector_eq_iff,
    BitVec.ofNat_eq_ofNat, BitVec.reduceAnd, fieldOp_ofNat, fieldKk_ofNat, fieldN_ofNat, Nat.reducePow, Nat.reduceMod,
    Nat.reduceDiv, encode, ignoredBits, BitVec.not_zero, BitVec.and_allOnes, and_true]
  refine ⟨formatZ_of_byteSelector, formatZ_of_byteSelector, ?_⟩
  refine ⟨formatA_of_fieldOp, formatA_of_fieldOp, formatXk_of_fieldOp, formatXk_of_fieldOp,
    formatXyn_of_fieldOp_ignoring_n, formatXk_of_fieldOp, formatXk_of_fieldOp, formatXyn_of_fieldOp_ignoring_n,
    formatA_of_fieldOp, formatA_of_fieldOp, formatXk_of_fieldOp, formatXyn_of_fieldOp, ?_⟩
  refine ⟨formatXyn_of_nibbleSelector, formatXyn_of_nibbleSelector, formatXyn_of_nibbleSelector,
    formatXyn_of_nibbleSelector, formatXyn_of_nibbleSelector, formatXyn_of_nibbleSelector,
    formatXyn_of_nibbleSelector_ignoring_y, formatXyn_of_nibbleSelector, formatXyn_of_nibbleSelector_ignoring_y, ?_⟩
  and_intros <;> exact formatXk_of_byteSelector

/-- No row looks at a bit that its instruction ignores (30_encoding.md R70). -/
theorem mask_and_ignoredBits (w : Word) :
    ∀ r ∈ opcodeTable .byte, ~~~ (ignoredBits (r.build w)) &&& r.mask = r.mask := by
  simp only [opcodeTable, family0Rows, singleRows, family8Rows, familyERows, familyFRows, selectorRow, selectorMask,
    List.cons_append, List.nil_append, List.forall_mem_cons, List.not_mem_nil, false_implies, implies_true, ignoredBits]
  decide

/-- Which bits an instruction ignores depends on its row alone. -/
theorem ignoredBits_build (w w' : Word) :
    ∀ r ∈ opcodeTable .byte, ignoredBits (r.build w) = ignoredBits (r.build w') := by
  simp [opcodeTable, family0Rows, singleRows, family8Rows, familyERows, familyFRows, selectorRow, ignoredBits]

/-- A word decodes to an instruction whose encoding is the word with the ignored bits cleared. -/
theorem encode_of_decode {w : Word} {i : Instr} (h : decode w = .instr i) : w &&& ~~~ (ignoredBits i) = encode i := by
  obtain ⟨r, hr, hits, hd⟩ | ⟨-, hd⟩ := decode_cases w
  · obtain rfl : r.build w = i := by simpa [hd] using h
    exact (encode_build_of_hits w r hr hits).symm
  · simp [hd] at h

/-- Settles O2: the row of `i` hits the word too, since it looks at no ignored bit; and different instructions have
different words. -/
theorem decodedWordsAreTheEncodingsUpToIgnoredBits : Obligations.DecodedWordsAreTheEncodingsUpToIgnoredBits := by
  intro w i
  refine ⟨encode_of_decode, fun h => ?_⟩
  obtain ⟨r, hr, hits, hbuild⟩ := encodingRow i
  have hitsw : r.hits w = true := by
    simp only [OpcodeRow.hits, beq_iff_eq] at hits ⊢
    rw [← hits, ← h, ← hbuild, BitVec.and_assoc, mask_and_ignoredBits _ r hr]
  have hd : decode w = .instr (r.build w) := decode_of_row hr hitsw
  have hign : ignoredBits (r.build w) = ignoredBits i := by
    rw [← hbuild]
    exact ignoredBits_build _ _ r hr
  have henc : encode (r.build w) = encode i := by rw [← encode_of_decode hd, hign, h]
  rw [hd, encode_injective henc]

/-- A word escapes families 1 to 7 and 9 to D exactly when its leading nibble is one of the four others. -/
theorem singleRows_miss_iff (w : Word) :
    (∀ r ∈ singleRows, r.hits w = false) ↔ fieldOp w = 0x0 ∨ fieldOp w = 0x8 ∨ fieldOp w = 0xE ∨ fieldOp w = 0xF := by
  simp (disch := decide) only [singleRows, List.forall_mem_cons, List.not_mem_nil, false_implies, implies_true,
    OpcodeRow.hits, beq_eq_false_iff_ne, ne_eq, and_family_eq_iff, BitVec.ofNat_eq_ofNat, fieldOp_ofNat, Nat.reducePow,
    Nat.reduceMod, Nat.reduceDiv]
  generalize fieldOp w = op
  revert op
  decide

/-- A row with the byte selector mask hits by the leading nibble and the trailing byte. -/
theorem hits_byteSelector (w bits : Word) (build : Word → Instr)
    (hb : formatXk (fieldOp bits) 0 (fieldKk bits) = bits) :
    (⟨0xF0FF#16, bits, build⟩ : OpcodeRow).hits w = (fieldOp w == fieldOp bits && fieldKk w == fieldKk bits) := by
  rw [Bool.eq_iff_iff]
  simpa [OpcodeRow.hits] using and_byteSelector_eq_iff w bits hb

/-- A row with the nibble selector mask hits by the leading and the trailing nibble. -/
theorem hits_nibbleSelector (w bits : Word) (build : Word → Instr)
    (hb : formatXyn (fieldOp bits) 0 0 (fieldN bits) = bits) :
    (⟨0xF00F#16, bits, build⟩ : OpcodeRow).hits w = (fieldOp w == fieldOp bits && fieldN w == fieldN bits) := by
  rw [Bool.eq_iff_iff]
  simpa [OpcodeRow.hits] using and_nibbleSelector_eq_iff w bits hb

theorem family0Rows_miss_iff (w : Word) :
    (∀ r ∈ family0Rows .byte, r.hits w = false) ↔ (fieldOp w = 0x0 → fieldKk w ∉ [0xE0, 0xEE]) := by
  simp (disch := decide) [family0Rows, selectorRow, selectorMask, hits_byteSelector, fieldOp_ofNat, fieldKk_ofNat, imp_and]

theorem familyERows_miss_iff (w : Word) :
    (∀ r ∈ familyERows .byte, r.hits w = false) ↔ (fieldOp w = 0xE → fieldKk w ∉ [0x9E, 0xA1]) := by
  simp (disch := decide) [familyERows, selectorRow, selectorMask, hits_byteSelector, fieldOp_ofNat, fieldKk_ofNat, imp_and]

theorem familyFRows_miss_iff (w : Word) :
    (∀ r ∈ familyFRows, r.hits w = false) ↔
      (fieldOp w = 0xF → fieldKk w ∉ [0x07, 0x0A, 0x15, 0x18, 0x1E, 0x29, 0x33, 0x55, 0x65]) := by
  simp (disch := decide) [familyFRows, hits_byteSelector, fieldOp_ofNat, fieldKk_ofNat, imp_and]

theorem family8Rows_miss_iff (w : Word) :
    (∀ r ∈ family8Rows, r.hits w = false) ↔
      (fieldOp w = 0x8 → fieldN w ∈ [0x8, 0x9, 0xA, 0xB, 0xC, 0xD, 0xF]) := by
  by_cases hop : fieldOp w = 0x8#4 <;>
    simp (disch := decide) [family8Rows, hits_nibbleSelector, fieldOp_ofNat, fieldN_ofNat, hop]
  generalize fieldN w = n
  revert n
  decide

/-- No row hits a word exactly when its family has selectors and none of them is in the word. -/
theorem opcodeTable_miss_iff (w : Word) : (∀ r ∈ opcodeTable .byte, r.hits w = false) ↔
    fieldOp w = 0x0 ∧ fieldKk w ∉ [0xE0, 0xEE] ∨
    fieldOp w = 0x8 ∧ fieldN w ∈ [0x8, 0x9, 0xA, 0xB, 0xC, 0xD, 0xF] ∨
    fieldOp w = 0xE ∧ fieldKk w ∉ [0x9E, 0xA1] ∨
    fieldOp w = 0xF ∧ fieldKk w ∉ [0x07, 0x0A, 0x15, 0x18, 0x1E, 0x29, 0x33, 0x55, 0x65] := by
  simp only [opcodeTable, List.forall_mem_append, family0Rows_miss_iff, singleRows_miss_iff, family8Rows_miss_iff,
    familyERows_miss_iff, familyFRows_miss_iff]
  constructor
  · rintro ⟨⟨⟨⟨h0, hop⟩, h8⟩, hE⟩, hF⟩
    rcases hop with hop | hop | hop | hop
    · exact .inl ⟨hop, h0 hop⟩
    · exact .inr (.inl ⟨hop, h8 hop⟩)
    · exact .inr (.inr (.inl ⟨hop, hE hop⟩))
    · exact .inr (.inr (.inr ⟨hop, hF hop⟩))
  · rintro (⟨hop, h⟩ | ⟨hop, h⟩ | ⟨hop, h⟩ | ⟨hop, h⟩) <;> simpa [hop] using h

/-- Settles O3: the decoder rejects when no row hits. -/
theorem noOpWordsAreTheUnmatchedSelectors : Obligations.NoOpWordsAreTheUnmatchedSelectors := by
  intro w e
  rw [← opcodeTable_miss_iff]
  obtain ⟨r, hr, hits, hd⟩ | ⟨hmiss, hd⟩ := decode_cases w
  · have : ¬ ∀ r ∈ opcodeTable .byte, r.hits w = false := fun h => by simp [h r hr] at hits
    simp [hd, this]
  · simpa [hd] using ⟨fun h => ⟨h.symm, hmiss⟩, fun h => h.1.symm⟩

end Sys2Proof
end

section
/-! PROOFS. The assembler (30_encoding.md R72) and the words that the spec's vectors write out. -/

namespace Sys2Proof

/-- Every operand of an instruction fits its field. -/
theorem wellFormed_listing (i : Instr) : (listing i).wellFormed = true := by
  have hnnn (nnn : Addr12) : nnn.toNat < 4096 := nnn.isLt
  have hkk (kk : Byte) : kk.toNat < 256 := kk.isLt
  have hn (n : Nibble) : n.toNat < 16 := n.isLt
  cases i <;> simp [listing, AsmLine.wellFormed, hnnn, hkk, hn]

/-- A well-formed line of a mnemonic and operands assembles to the word of the instruction they name. -/
theorem assemble_instr {m : Mnemonic} {ops : List Operand} {i : Instr}
    (hwf : (AsmLine.instr m ops).wellFormed = true) (hi : instrOf m ops = some i) :
    assemble (.instr m ops) = some (opcodeBytes (encode i)) := by
  simp [assemble, hwf, hi]

/-- The line of an instruction names that instruction. -/
theorem assemble_listing (i : Instr) : assemble (listing i) = some (opcodeBytes (encode i)) := by
  have hwf := wellFormed_listing i
  cases i <;> exact assemble_instr hwf (by simp [instrOf])

/-- A well-formed line's operands are a shape that some row has for its mnemonic. -/
theorem isSome_instrOf {m : Mnemonic} {ops : List Operand} (h : (AsmLine.instr m ops).wellFormed = true) :
    (instrOf m ops).isSome = true := by
  simp only [AsmLine.wellFormed] at h
  split at h <;> simp_all [instrOf]

theorem isSome_assemble (l : AsmLine) : (assemble l).isSome = l.wellFormed := by
  cases h : l.wellFormed with
  | false => simp [assemble, h]
  | true =>
    cases l with
    | instr m ops => simpa [assemble, h] using isSome_instrOf h
    | db n => simp [assemble, h]
    | dw n => simp [assemble, h]

/-- Settles O7: a listing is well formed and names its instruction; a well-formed line names some instruction. -/
theorem assemblerAgreesWithEncoder : Obligations.AssemblerAgreesWithEncoder := ⟨assemble_listing, isSome_assemble⟩

/-- Settles O4: twelve words, each run through the decoder. -/
theorem wordsOfTheSpecDecode : Obligations.WordsOfTheSpecDecode := by
  unfold Obligations.WordsOfTheSpecDecode
  decide

end Sys2Proof
end

section
/-! PROOFS. Memory (20_memory.md R40, R41): what is read after a write and after a run of writes, and that the canonical
form is unique. -/

namespace Sys2Proof.Machine

/-- A written byte is read back, from a memory in rising order. -/
theorem Memory.read_write_self {m : Memory} (a : Nat) (v : Byte) (hm : m.Pairwise (fun p q => p.1 < q.1)) :
    (m.write a v).read a = v := by
  induction m with
  | nil => simp only [Memory.write]; split <;> simp_all [Memory.read]
  | cons d m ih =>
    obtain ⟨hd, hm'⟩ := List.pairwise_cons.mp hm
    obtain ⟨b, w⟩ := d
    rcases Nat.lt_trichotomy a b with hab | rfl | hba
    · have hall : ∀ c ∈ (b, w) :: m, a < c.1 := List.forall_mem_cons.mpr ⟨hab, fun c hc => hab.trans (hd c hc)⟩
      simp only [Memory.write, hab, if_true]
      split
      · next hv => rw [Memory.read_of_lt_all hall, hv]
      · simp [Memory.read]
    · simp only [Memory.write, lt_irrefl, if_false, if_true]
      split
      · next hv => rw [Memory.read_of_lt_all hd, hv]
      · simp [Memory.read]
    · have hab : ¬ a < b := by omega
      have hne : a ≠ b := by omega
      simp only [Memory.write, hab, hne, if_false, Memory.read, ih hm']

/-- The byte at every address after a write. -/
theorem Memory.read_write {m : Memory} (a b : Nat) (v : Byte) (hm : m.wf) :
    (m.write a v).read b = if b = a then v else m.read b := by
  split
  · next h => rw [h, Memory.read_write_self a v hm.1]
  · next h => exact Memory.read_write_ne m v h

/-- A run of bytes is read back at ascending addresses. -/
theorem Memory.read_writeBytes_inside {m : Memory} {a k : Nat} {bs : List Byte} (hm : m.wf)
    (ha : a + bs.length ≤ 0x1000) (hk : k < bs.length) : (m.writeBytes a bs).read (a + k) = bs[k] := by
  induction bs generalizing m a k with
  | nil => simp at hk
  | cons b bs ih =>
    simp only [List.length_cons] at ha hk
    have hm' : (m.write a b).wf := Memory.write_wf b hm (by omega)
    cases k with
    | zero =>
      rw [Memory.writeBytes, Memory.read_writeBytes_outside _ _ (by omega)]
      exact Memory.read_write_self a b hm.1
    | succ k =>
      rw [Memory.writeBytes, show a + (k + 1) = a + 1 + k by omega, ih hm' (by omega) (by omega)]
      rfl

/-- A canonical memory without its first entry is canonical and lies above it; that entry differs from the unlisted value. -/
theorem Memory.wf_of_cons {d : Host.Cell} {m : Memory} (h : Memory.wf (d :: m)) :
    (∀ c ∈ m, d.1 < c.1) ∧ Memory.wf m ∧ d.2 ≠ Memory.initial d.1 := by
  obtain ⟨hp, hc⟩ := h
  obtain ⟨hd, hp⟩ := List.pairwise_cons.mp hp
  obtain ⟨⟨-, hne⟩, hm⟩ := List.forall_mem_cons.mp hc
  exact ⟨hd, ⟨hp, hm⟩, hne⟩

/-- The first listed byte shows: an address below it reads as unlisted, and it does not. -/
theorem Memory.head_le_of_read_eq {d e : Host.Cell} {m k : Memory} (hm : Memory.wf (d :: m)) (hk : Memory.wf (e :: k))
    (h : ∀ a, Memory.read (d :: m) a = Memory.read (e :: k) a) : e.1 ≤ d.1 := by
  by_contra hlt
  have hlt : d.1 < e.1 := by omega
  obtain ⟨-, -, hne⟩ := Memory.wf_of_cons hm
  obtain ⟨he, -, -⟩ := Memory.wf_of_cons hk
  have hread := h d.1
  rw [Memory.read_of_lt_all (m := e :: k)
    (List.forall_mem_cons.mpr ⟨hlt, fun c hc => hlt.trans (he c hc)⟩)] at hread
  exact hne (by simpa [Memory.read] using hread)

/-- Only the empty canonical memory reads as reset leaves memory. -/
theorem Memory.not_reads_as_initial {d : Host.Cell} {m : Memory} (hm : Memory.wf (d :: m)) :
    ¬ ∀ a, Memory.read (d :: m) a = Memory.initial a := by
  intro h
  obtain ⟨-, -, hne⟩ := Memory.wf_of_cons hm
  exact hne (by simpa [Memory.read] using h d.1)

/-- Canonical memories that read alike are equal: their first entries agree, and what remains reads alike. -/
theorem Memory.ext_of_wf {m k : Memory} (hm : m.wf) (hk : k.wf) (h : ∀ a, m.read a = k.read a) : m = k := by
  induction m generalizing k with
  | nil =>
    cases k with
    | nil => rfl
    | cons e k => exact absurd (fun a => (h a).symm) (Memory.not_reads_as_initial hk)
  | cons d m ih =>
    cases k with
    | nil => exact absurd h (Memory.not_reads_as_initial hm)
    | cons e k =>
      have haddr : d.1 = e.1 :=
        le_antisymm (Memory.head_le_of_read_eq hk hm fun a => (h a).symm) (Memory.head_le_of_read_eq hm hk h)
      have hbyte : d.2 = e.2 := by simpa [Memory.read, haddr] using h d.1
      obtain ⟨hd, hm, -⟩ := Memory.wf_of_cons hm
      obtain ⟨he, hk, -⟩ := Memory.wf_of_cons hk
      have htail (a : Nat) : Memory.read m a = Memory.read k a := by
        by_cases ha : a = d.1
        · rw [Memory.read_of_lt_all (ha ▸ hd), Memory.read_of_lt_all (ha ▸ haddr ▸ he)]
        · simpa [Memory.read, ha, haddr ▸ ha] using h a
      rw [Prod.ext haddr hbyte, ih hm hk htail]

/-- Settles O29: `Memory.ext_of_wf`. -/
theorem canonicalMemoriesThatReadAlikeAreEqual : Obligations.CanonicalMemoriesThatReadAlikeAreEqual :=
  fun _ _ hm hk h => Memory.ext_of_wf hm hk h

/-- LD VX,[I] in bounds (42_mem_transfer.md R125). -/
theorem exec_ldVxMem_inBounds {x : Reg} {s : State} (h : x.val = 0 ∨ s.i.toNat + x.val - 1 ≤ 0xFFF) :
    exec (.ldVxMem x) s = .next { s.advance with v := s.loadBelow x } :=
  State.access_inBounds s _ _ h

/-- Settles O28: the read after a write, the canonical form, and the two readers of the one array. -/
theorem memWriteSetsOneByte : Obligations.MemWriteSetsOneByte := by
  intro m a v hm ha
  have hwf : (m.write a v).wf := Memory.write_wf v hm (by omega)
  refine ⟨fun b => Memory.read_write a b v hm, hwf, fun c hc => (hwf.2 c hc).1, fun s hpc _ => ?_, fun s hi => ?_⟩
  · simp [State.fetch, hpc, Memory.read_write _ _ _ hm, opcodeOf]
  · refine ⟨_, exec_ldVxMem_inBounds (.inr (hi.trans_le ha)), ?_⟩
    refine (State.getElem_loadBelow _ 1 0).trans ?_
    simp [hi, Memory.read_write _ _ _ hm]

/-- The two bytes of an opcode give it back (20_memory.md R41). -/
theorem opcodeOf_bytes (w : Word) : opcodeOf (w.extractLsb' 8 8) (w.extractLsb' 0 8) = w := by
  refine BitVec.eq_of_getLsbD_eq fun k hk => ?_
  refine (BitVec.getLsbD_append (i := k)).trans ?_
  split
  · next h => simp [h]
  · next h => simp [show k - 8 < 8 by omega, show 8 + (k - 8) = k by omega]

/-- The load of a word that has 16 bits, where the fetch is in memory. -/
theorem State.withFetchWord_eq (s : State) (w : Word) (h : s.pc.toNat ≤ 0xFFE) :
    s.withFetchWord 16 w.toNat = { s with mem := s.mem.writeBytes s.pc.toNat (opcodeBytes w) } := by
  have hw : BitVec.ofNat 16 (w.toNat % 2 ^ 16) = w := by
    rw [Nat.mod_eq_of_lt w.isLt, BitVec.ofNat_toNat, BitVec.setWidth_eq]
  rw [State.withFetchWord, hw, State.placeAtPc, if_pos (s.fetchable_iff.mpr h)]

/-- Settles O30: the two written bytes are the ones the fetch reads. -/
theorem placedWordIsFetched : Obligations.PlacedWordIsFetched := by
  intro s w hm hpc
  have hfit : s.pc.toNat + (opcodeBytes w).length ≤ 0x1000 := by rw [length_opcodeBytes]; omega
  have hhi : (s.mem.writeBytes s.pc.toNat (opcodeBytes w)).read s.pc.toNat = w.extractLsb' 8 8 :=
    Memory.read_writeBytes_inside (k := 0) hm hfit (by simp)
  have hlo : (s.mem.writeBytes s.pc.toNat (opcodeBytes w)).read (s.pc.toNat + 1) = w.extractLsb' 0 8 :=
    Memory.read_writeBytes_inside (k := 1) hm hfit (by simp)
  rw [State.withFetchWord_eq s w hpc]
  refine ⟨?_, rfl, fun a h0 h1 => ?_⟩
  · rw [State.fetch, hhi, hlo, opcodeOf_bytes]
  · exact Memory.read_writeBytes_outside _ _ (by rw [length_opcodeBytes]; omega)

/-- Settles O31: the loader writes one run of bytes, which fits below 0x1000. -/
theorem programLoadWritesTheImageVerbatim : Obligations.ProgramLoadWritesTheImageVerbatim := by
  intro s image hm
  refine ⟨fun hlong => ?_, fun hfit => ?_⟩
  · simp [State.loadProgram, imageFits, hlong]
  · have hend : 0x200 + image.length ≤ 0x1000 := by omega
    refine ⟨{ s with mem := s.mem.writeBytes 0x200 image }, ?_, rfl, Memory.writeBytes_wf image hm hend,
      fun k hk => Memory.read_writeBytes_inside hm hend hk, fun a ha => Memory.read_writeBytes_outside _ image ha⟩
    simp [State.loadProgram, imageFits, hfit]

end Sys2Proof.Machine
end

section
/-! PROOFS. What an instruction can do, said once for all 34 and for every configuration whose OOB_POLICY is the fault:
the fault it raises, or what it leaves unchanged when it completes (10_state.md R25, 60_exceptions.md R171, R172). -/

namespace Sys2Proof.Machine

/-- The fault an instruction raises from a state, with its information (60_exceptions.md R171, R174 to R176). -/
def faultOf (i : Instr) (s : State) : Option (FaultCause × BitVec 17) :=
  match i with
  | .callNnn _ => if s.sp = 16 then some (.stackOverflow, 16) else none
  | .ret => if s.sp = 0 then some (.stackUnderflow, 0) else none
  | i => if s.outOfBounds (dataBytes i) then some (.memOob, BitVec.ofNat 17 (s.lastAddress (dataBytes i))) else none

/-- DT as an instruction leaves it to the tick (43_timer_peripheral.md R141). -/
@[simp] def loadedDt (i : Instr) (s : State) : Byte :=
  match i with
  | .ldDtVx x => s.reg x
  | _ => s.dt

/-- ST as an instruction leaves it to the tick (43_timer_peripheral.md R142). -/
@[simp] def loadedSt (i : Instr) (s : State) : Byte :=
  match i with
  | .ldStVx x => s.reg x
  | _ => s.st

/-- The random bytes an instruction draws (60_exceptions.md R185). -/
@[simp] def drawnBytes (i : Instr) : Nat :=
  match i with
  | .rndVxKk _ _ => 1
  | _ => 0

/-- What an instruction that completes in `t` from `s` may have changed, field by field (10_state.md R25). -/
structure Completes (i : Instr) (s t : State) : Prop where
  fault : t.fault = s.fault
  reg : ∀ r, t.reg r ≠ s.reg r → writesReg i r = true
  index : t.i ≠ s.i → (∃ nnn, i = .ldINnn nnn) ∨ (∃ x, i = .addIVx x) ∨ ∃ x, i = .ldFVx x
  stack : (t.stack = s.stack ∧ t.sp = s.sp) ∨
    (∃ nnn, i = .callNnn nnn ∧ ∃ h : s.sp.val < 16, t.stack = s.stack.set s.sp.val (s.pc + 2) ∧ t.sp.val = s.sp.val + 1) ∨
    (i = .ret ∧ t.stack = s.stack ∧ t.sp.val + 1 = s.sp.val)
  frame : t.fb ≠ s.fb → i = .cls ∨ ∃ x y n, i = .drwVxVyN x y n
  mem : t.mem = s.mem ∨ ((∃ x, i = .ldMemVx x) ∨ ∃ x, i = .ldBVx x) ∧
    ∃ bs, bs.length = dataBytes i ∧ t.mem = s.mem.writeBytes s.i.toNat bs
  dt : t.dt = loadedDt i s
  st : t.st = loadedSt i s
  draws : t.draws = s.draws + drawnBytes i
  pc : t.pc.toNat ≤ s.pc.toNat + 4 ∨ t.pc.toNat ≤ 0x10FE ∨ ∃ k : Fin 16, t.pc = s.stack[k]

/-- How an instruction ends: in the fault of `faultOf`, or complete. -/
def Ends (c : Config) (i : Instr) (s : State) : Prop :=
  (∃ f n, faultOf i s = some (f, n) ∧ execUnder c i s = .next (s.raise f n)) ∨
    (faultOf i s = none ∧ ∃ t, execUnder c i s = .next t ∧ Completes i s t)

/-! Addresses in numbers (30_encoding.md R64). -/

@[simp] theorem toNat_addressOf (nnn : Addr12) : (addressOf nnn).toNat = nnn.toNat :=
  BitVec.toNat_setWidth_of_le (by decide)

@[simp] theorem toNat_widen (b : Byte) : (widen b).toNat = b.toNat := BitVec.toNat_setWidth_of_le (by decide)

/-- The sum of JP V0,NNN stays below 65536 (41_control_flow.md R104). -/
theorem toNat_widen_add_addressOf (b : Byte) (nnn : Addr12) :
    (widen b + addressOf nnn).toNat = b.toNat + nnn.toNat := by
  have hb : b.toNat < 256 := b.isLt
  have hn : nnn.toNat < 4096 := nnn.isLt
  rw [BitVec.toNat_add, toNat_widen, toNat_addressOf, Nat.mod_eq_of_lt (by omega)]

/-- The jumps reach no higher than 0x10FE (10_state.md R14). -/
theorem toNat_widen_add_addressOf_le (b : Byte) (nnn : Addr12) : (widen b + addressOf nnn).toNat ≤ 0x10FE := by
  have hb : b.toNat < 256 := b.isLt
  have hn : nnn.toNat < 4096 := nnn.isLt
  rw [toNat_widen_add_addressOf]
  omega

theorem toNat_addressOf_le (nnn : Addr12) : (addressOf nnn).toNat ≤ 0x10FE := by
  have hn : nnn.toNat < 4096 := nnn.isLt
  rw [toNat_addressOf]
  omega

/-! A register after the operations that write others or none. -/

@[simp] theorem State.reg_setI (s : State) (a : Word) (r : Reg) : (s.setI a).reg r = s.reg r := rfl

@[simp] theorem State.reg_setDt (s : State) (b : Byte) (r : Reg) : (s.setDt b).reg r = s.reg r := rfl

@[simp] theorem State.reg_setSt (s : State) (b : Byte) (r : Reg) : (s.setSt b).reg r = s.reg r := rfl

@[simp] theorem State.reg_drawRnd_snd (s : State) (r : Reg) : s.drawRnd.2.reg r = s.reg r := rfl

@[simp] theorem State.reg_storeAtI (s : State) (bs : List Byte) (r : Reg) : (s.storeAtI bs).reg r = s.reg r := rfl

@[simp] theorem State.reg_skipIf (s : State) (b : Bool) (r : Reg) : (s.skipIf b).reg r = s.reg r :=
  State.reg_congr s _ (s.skipIf_v b) r

/-- Only the written register can differ. -/
theorem State.eq_of_reg_setReg_ne {s t : State} {x r : Reg} {b : Byte} (ht : t.v = s.v)
    (h : (t.setReg x b).reg r ≠ s.reg r) : r = x := by
  by_contra hr
  rw [State.reg_setReg, if_neg hr, State.reg_congr s t ht] at h
  exact h rfl

/-- Only the result's register and VF can differ, whatever the order of the two writes. -/
theorem State.eq_of_reg_setResultAndFlag_ne {s : State} {o : VfOrder} {x r : Reg} {result flag : Byte}
    (h : (State.setResultAndFlag o s x result flag).reg r ≠ s.reg r) : r = x ∨ r = vf := by
  by_contra hr
  obtain ⟨hx, hvf⟩ := not_or.mp hr
  cases o <;> exact h (by simp [State.setResultAndFlag, State.reg_setReg, hx, hvf])

/-- Only the registers below X can differ after a load (42_mem_transfer.md R125). -/
theorem State.lt_of_reg_loadBelow_ne {s : State} {x r : Reg}
    (h : ({ s.advance with v := s.loadBelow x } : State).reg r ≠ s.reg r) : r < x := by
  by_contra hr
  exact h ((s.getElem_loadBelow x r).trans (if_neg hr))

theorem Ends.of_completes {c : Config} {i : Instr} {s t : State} (hf : faultOf i s = none)
    (he : execUnder c i s = .next t) (h : Completes i s t) : Ends c i s :=
  .inr ⟨hf, t, he, h⟩

/-- An instruction that accesses memory at I ends in MEM_OOB or in its end. -/
theorem Ends.of_access {c : Config} {i : Instr} {s t : State} (he : execUnder c i s = s.access .fault (dataBytes i) t)
    (hf : faultOf i s = if s.outOfBounds (dataBytes i) then
      some (.memOob, BitVec.ofNat 17 (s.lastAddress (dataBytes i))) else none)
    (h : Completes i s t) : Ends c i s := by
  rw [State.access] at he
  split at he
  · next hout => exact .inl ⟨_, _, by rw [hf, if_pos hout], he⟩
  · next hin => exact .of_completes (by rw [hf, if_neg hin]) he h

/-- CALL ends in STACK_OVERFLOW or with the return address pushed (41_control_flow.md R103). -/
theorem Ends.callNnn {c : Config} (hc : c.oobPolicy = .fault) (nnn : Addr12) (s : State) : Ends c (.callNnn nnn) s := by
  have he : execUnder c (.callNnn nnn) s = State.call s s.advance .fault (addressOf nnn) := by rw [← hc]; rfl
  by_cases hs : s.sp.val < 16
  · have hsp : s.sp ≠ 16 := fun h => by simp [h] at hs
    rw [State.call, dif_pos (show s.advance.sp.val < 16 from hs)] at he
    refine .of_completes (if_neg hsp) he ?_
    constructor
    case pc => exact .inr (.inl (toNat_addressOf_le nnn))
    all_goals simp [State.reg, hs]
  · have hsp : s.sp = 16 := Fin.ext (by have := s.sp.isLt; simp; omega)
    rw [State.call, dif_neg (show ¬ s.advance.sp.val < 16 from hs), hsp] at he
    exact .inl ⟨_, _, if_pos hsp, he⟩

/-- RET ends in STACK_UNDERFLOW or with the return address popped (41_control_flow.md R101). -/
theorem Ends.ret {c : Config} (hc : c.oobPolicy = .fault) (s : State) : Ends c .ret s := by
  have he : execUnder c .ret s = State.ret s s.advance .fault := by rw [← hc]; rfl
  by_cases hs : 0 < s.sp.val
  · have hsp : s.sp ≠ 0 := fun h => by simp [h] at hs
    rw [State.ret, dif_pos (show 0 < s.advance.sp.val from hs)] at he
    refine .of_completes (if_neg hsp) he ?_
    constructor
    case stack => exact .inr (.inr ⟨rfl, rfl, Nat.sub_add_cancel hs⟩)
    case pc => exact .inr (.inr ⟨⟨s.sp.val - 1, by omega⟩, rfl⟩)
    all_goals simp [State.reg]
  · have hsp : s.sp = 0 := Fin.ext (by simp; omega)
    rw [State.ret, dif_neg (show ¬ 0 < s.advance.sp.val from hs), hsp] at he
    exact .inl ⟨_, _, if_pos hsp, he⟩

/-- The fetch's advance moves PC by at most 2. -/
theorem State.toNat_advance_pc_le (s : State) : s.advance.pc.toNat ≤ s.pc.toNat + 4 := by
  simp
  omega

theorem State.toNat_skip_pc_le (s : State) (b : Bool) : (s.advance.skipIf b).pc.toNat ≤ s.pc.toNat + 4 := by
  cases b <;> simp [State.skipIf] <;> omega

/-- LD VX,K takes a key, or leaves the state as it was, since PC - 2 undoes the fetch's advance. -/
theorem execLdVxK_ends (x : Reg) (s : State) :
    (∃ k, s.firstKey = some k ∧ execLdVxK x s = .next (s.advance.setReg x (BitVec.ofNat 8 k.val))) ∨
      (s.firstKey = none ∧ execLdVxK x s = .next s) := by
  cases hk : s.firstKey with
  | some k => exact .inl ⟨k, rfl, by simp [execLdVxK, hk]⟩
  | none =>
    have hpc : s.pc + 2 - 2 = s.pc := BitVec.add_sub_cancel ..
    refine .inr ⟨rfl, ?_⟩
    simp only [execLdVxK, hk, State.rewind, State.advance, State.setPc, hpc]

/-- Every instruction ends in the fault of `faultOf` or completes. -/
theorem execUnder_ends {c : Config} (hc : c.oobPolicy = .fault) (i : Instr) (s : State) : Ends c i s := by
  have hadv : s.advance.pc.toNat ≤ s.pc.toNat + 4 := s.toNat_advance_pc_le
  cases i with
  | ret => exact .ret hc s
  | callNnn nnn => exact .callNnn hc nnn s
  | cls =>
    refine .of_completes rfl rfl ?_
    constructor
    case reg => exact fun r hr => absurd rfl hr
    case pc => exact .inl hadv
    all_goals simp
  | ldBVx x =>
    refine .of_access (by rw [← hc]; rfl) rfl ?_
    constructor
    case mem => exact .inr ⟨.inr ⟨x, rfl⟩, _, length_bcdDigits c.bcdOrder _, rfl⟩
    case pc => exact .inl hadv
    all_goals simp
  | ldMemVx x =>
    refine .of_access (by rw [← hc]; rfl) rfl ?_
    constructor
    case mem => exact .inr ⟨.inl ⟨x, rfl⟩, _, s.length_regsBelow x, rfl⟩
    case pc => exact .inl hadv
    all_goals simp
  | ldVxMem x =>
    refine .of_access (by rw [← hc]; rfl) rfl ?_
    constructor
    case reg => exact fun r hr => decide_eq_true (State.lt_of_reg_loadBelow_ne hr)
    case pc => exact .inl hadv
    all_goals simp
  | drwVxVyN x y n =>
    refine .of_access (by rw [← hc]; rfl) rfl ?_
    constructor
    case reg => exact fun r hr => beq_iff_eq.mpr (State.eq_of_reg_setReg_ne rfl hr)
    case pc => exact .inl hadv
    all_goals simp
  | ldVxK x =>
    obtain ⟨k, -, he⟩ | ⟨-, he⟩ := execLdVxK_ends x s
    · refine .of_completes rfl he ?_
      constructor
      case pc => exact .inl hadv
      all_goals simp [writesReg, State.reg_setReg]
    · refine .of_completes rfl he ?_
      constructor <;> simp
  | jpNnn nnn =>
    refine .of_completes rfl rfl ?_
    constructor
    case pc => exact .inr (.inl (toNat_addressOf_le nnn))
    all_goals simp
  | jpV0Nnn nnn =>
    refine .of_completes rfl rfl ?_
    constructor
    case pc => exact .inr (.inl (toNat_widen_add_addressOf_le _ nnn))
    all_goals simp
  | seVxKk | sneVxKk | seVxVy | sneVxVy | skpVx | sknpVx =>
    refine .of_completes rfl rfl ?_
    constructor
    case pc => exact .inl (s.toNat_skip_pc_le _)
    all_goals simp
  | addVxVy | subVxVy | shrVx | subnVxVy | shlVx =>
    refine .of_completes rfl rfl ?_
    constructor
    case reg => exact fun r hr => by simpa [writesReg] using State.eq_of_reg_setResultAndFlag_ne hr
    case pc => exact .inl (by rwa [State.setResultAndFlag_pc])
    all_goals simp
  | _ =>
    refine .of_completes rfl rfl ?_
    constructor
    case pc => exact .inl hadv
    all_goals simp [writesReg, State.reg_setReg]

end Sys2Proof.Machine
end

section
/-! PROOFS. One cycle, said once (30_encoding.md R60): what each way to end it leaves, and the faults (60_exceptions.md
R171, R172). -/

namespace Sys2Proof.Machine

theorem exec_ends (i : Instr) (s : State) : Ends params i s := execUnder_ends rfl i s

/-- An instruction that meets the condition of a fault ends in it. -/
theorem exec_of_faultOf {i : Instr} {s : State} {f : FaultCause} {n : BitVec 17} (h : faultOf i s = some (f, n)) :
    exec i s = .next (s.raise f n) := by
  obtain ⟨g, m, hf, he⟩ | ⟨hf, -⟩ := exec_ends i s
  · obtain ⟨rfl, rfl⟩ : f = g ∧ n = m := by simpa [h] using hf
    simpa using he
  · simp [h] at hf

/-- Every instruction answers a next state. -/
theorem exec_isNext (i : Instr) (s : State) : ∃ t, exec i s = .next t := by
  obtain ⟨f, n, -, he⟩ | ⟨-, t, he, -⟩ := exec_ends i s
  · exact ⟨_, by simpa using he⟩
  · exact ⟨t, by simpa using he⟩

/-- What an instruction answers: its fault, or a state it completes in. -/
theorem exec_cases {i : Instr} {s t : State} (h : exec i s = .next t) :
    (∃ f n, faultOf i s = some (f, n) ∧ t = s.raise f n) ∨ (faultOf i s = none ∧ Completes i s t) := by
  obtain ⟨f, n, hf, he⟩ | ⟨hf, u, he, hu⟩ := exec_ends i s
  · exact .inl ⟨f, n, hf, by simpa [h] using he⟩
  · obtain rfl : t = u := by simpa [h] using he
    exact .inr ⟨hf, hu⟩

/-- The condition of each fault of an instruction (60_exceptions.md R171). -/
theorem faultOf_cases {i : Instr} {s : State} {f : FaultCause} {n : BitVec 17} (h : faultOf i s = some (f, n)) :
    (f = .stackOverflow ∧ n = 16 ∧ s.sp = 16 ∧ ∃ nnn, i = .callNnn nnn) ∨
      (f = .stackUnderflow ∧ n = 0 ∧ s.sp = 0 ∧ i = .ret) ∨
      (f = .memOob ∧ n = BitVec.ofNat 17 (s.lastAddress (dataBytes i)) ∧ s.outOfBounds (dataBytes i) = true) := by
  unfold faultOf at h
  split at h <;> split at h <;> simp_all

/-- An instruction that reaches past memory raises MEM_OOB (20_memory.md R45). -/
theorem faultOf_of_outOfBounds {i : Instr} {s : State} (h : s.outOfBounds (dataBytes i) = true) :
    faultOf i s = some (.memOob, BitVec.ofNat 17 (s.lastAddress (dataBytes i))) := by
  obtain ⟨hlen, -⟩ := (s.outOfBounds_iff _).mp h
  unfold faultOf
  split
  · simp [dataBytes] at hlen
  · simp [dataBytes] at hlen
  · exact if_pos h

/-- An instruction that raises no fault stays in memory. -/
theorem inBounds_of_faultOf {i : Instr} {s : State} (h : faultOf i s = none) : s.outOfBounds (dataBytes i) = false := by
  by_contra hout
  simp [faultOf_of_outOfBounds (Bool.eq_true_of_not_eq_false hout)] at h

theorem State.halted_eq_false_iff (s : State) : s.halted = false ↔ s.fault.cause = .noFault := by
  simp [State.halted]

/-- The ways a cycle can end. -/
inductive Cycle (s t : State) : Prop
  /-- The core was halted and does nothing. -/
  | halted (hs : s.halted = true) (ht : t = s)
  /-- The fetch lies past the end of memory. -/
  | fetchOob (hs : s.halted = false) (hpc : 0xFFE < s.pc.toNat) (ht : t = s.raise .fetchOob (s.pc.setWidth 17))
  /-- The word is a no-op. -/
  | noOp (hs : s.halted = false) (hpc : s.pc.toNat ≤ 0xFFE) (e : DecodeError) (hd : decode s.fetch = .rejected e)
      (ht : t = s.advance.timerTick)
  /-- The instruction raises its fault. -/
  | raises (hs : s.halted = false) (hpc : s.pc.toNat ≤ 0xFFE) (i : Instr) (hd : decode s.fetch = .instr i)
      (f : FaultCause) (n : BitVec 17) (hf : faultOf i s = some (f, n)) (ht : t = s.raise f n)
  /-- The instruction completes and the timers tick. -/
  | completes (hs : s.halted = false) (hpc : s.pc.toNat ≤ 0xFFE) (i : Instr) (hd : decode s.fetch = .instr i)
      (hf : faultOf i s = none) (u : State) (hu : exec i s = .next u) (hc : Completes i s u) (ht : t = u.timerTick)

theorem Completes.halted {i : Instr} {s u : State} (hc : Completes i s u) : u.halted = s.halted := by
  rw [State.halted, hc.fault, State.halted]

theorem ne_noFault_of_faultOf {i : Instr} {s : State} {f : FaultCause} {n : BitVec 17}
    (h : faultOf i s = some (f, n)) : f ≠ .noFault := by
  obtain ⟨rfl, -⟩ | ⟨rfl, -⟩ | ⟨rfl, -⟩ := faultOf_cases h <;> decide

/-- Every step is one of those cycles. -/
theorem cycle_of_step {s t : State} (h : step s = .next t) : Cycle s t := by
  obtain ⟨hs, ht⟩ | ⟨hs, hf, ht⟩ | ⟨hs, hf, u, hu, ht⟩ := step_cases s t h
  · exact .halted hs ht
  · have hpc : ¬ s.pc.toNat ≤ 0xFFE := by simp [← s.fetchable_iff, hf]
    exact .fetchOob hs (by omega) ht
  · have hpc := s.fetchable_iff.mp hf
    obtain ⟨i, hd, he⟩ | ⟨e, hd, rfl⟩ := execute_cases _ s u hu
    · obtain ⟨f, n, hfault, rfl⟩ | ⟨hfault, hc⟩ := exec_cases he
      · exact .raises hs hpc i hd f n hfault (by simpa [ne_noFault_of_faultOf hfault] using ht)
      · exact .completes hs hpc i hd hfault u he hc (by simpa [hc.halted, hs] using ht)
    · have hadv : s.advance.halted = false := hs
      exact .noOp hs hpc e hd (by simpa [hadv] using ht)

/-- A step answers a next state. -/
theorem step_isNext (s : State) : ∃ t, step s = .next t := by
  by_cases hs : s.halted = true
  · exact ⟨s, step_of_halted s hs⟩
  · by_cases hf : s.fetchable = true
    · obtain ⟨u, hu⟩ : ∃ u, execute s.fetch s = .next u := by
        unfold execute
        split
        · next i _ => exact exec_isNext i s
        · exact ⟨s.advance, rfl⟩
      exact ⟨_, step_of_execute s u (by simpa using hs) hf hu⟩
    · exact ⟨s.fetchFault .fault, by simp [step, cycleOf, hs, hf, params]⟩

/-- Settles O13: every instruction raises its fault or completes, and so does every cycle. -/
theorem everyCycleEndsInAState : Obligations.EveryCycleEndsInAState := ⟨exec_isNext, step_isNext⟩

/-- Settles O16: the conditions of `faultOf`. -/
theorem faultEntriesRecordCauseEpcAndInfo : Obligations.FaultEntriesRecordCauseEpcAndInfo :=
  ⟨fun _ _ hsp => exec_of_faultOf (if_pos hsp), fun _ hsp => exec_of_faultOf (if_pos hsp),
    fun _ s hlen hout => exec_of_faultOf (faultOf_of_outOfBounds ((s.outOfBounds_iff _).mpr ⟨hlen, hout⟩))⟩

/-- Where a cycle changed a piece of state that no fault, no advance and no tick changes, an instruction completed and
changed it. -/
theorem Cycle.changed {s t : State} (h : Cycle s t) {α : Type} {π : State → α} (hne : π t ≠ π s)
    (hraise : ∀ f n, π (s.raise f n) = π s) (hnoOp : π s.advance.timerTick = π s) :
    ∃ i u, decode s.fetch = .instr i ∧ Completes i s u ∧ t = u.timerTick := by
  cases h with
  | halted _ ht => exact absurd (congrArg π ht) hne
  | fetchOob _ _ ht => exact absurd ((congrArg π ht).trans (hraise ..)) hne
  | noOp _ _ _ _ ht => exact absurd ((congrArg π ht).trans hnoOp) hne
  | raises _ _ _ _ _ _ _ ht => exact absurd ((congrArg π ht).trans (hraise ..)) hne
  | completes _ _ i hd _ u _ hc ht => exact ⟨i, u, hd, hc, ht⟩

/-- Settles O18: `step_key`, over every way to end a cycle. -/
theorem noCycleWritesTheKeypad : Obligations.NoCycleWritesTheKeypad := fun _ _ => step_key

/-- Settles O19: only an instruction that completes can have changed a register. -/
theorem registersChangeOnlyWhereTheInstructionWrites : Obligations.RegistersChangeOnlyWhereTheInstructionWrites := by
  intro s t r h hne
  obtain ⟨i, u, hd, hc, rfl⟩ := (cycle_of_step h).changed (π := (·.reg r)) hne (fun _ _ => rfl) rfl
  exact ⟨i, hd, hc.reg r hne⟩

/-- Settles O20: only an instruction that completes can have changed I. -/
theorem indexRegisterHasThreeWriters : Obligations.IndexRegisterHasThreeWriters := by
  intro s t h hne
  obtain ⟨i, u, hd, hc, rfl⟩ := (cycle_of_step h).changed (π := State.i) hne (fun _ _ => rfl) rfl
  obtain ⟨nnn, rfl⟩ | ⟨x, rfl⟩ | ⟨x, rfl⟩ := hc.index hne
  · exact .inl ⟨nnn, hd⟩
  · exact .inr (.inl ⟨x, hd⟩)
  · exact .inr (.inr ⟨x, hd⟩)

/-- Settles O21: only an instruction that completes can have changed STACK or SP. -/
theorem stackIsReachedByCallAndRetAlone : Obligations.StackIsReachedByCallAndRetAlone := by
  intro s t h
  constructor
  · intro hne
    obtain ⟨i, u, hd, hc, rfl⟩ := (cycle_of_step h).changed (π := State.stack) hne (fun _ _ => rfl) rfl
    obtain ⟨hstack, -⟩ | ⟨nnn, rfl, hs, hstack, hsp⟩ | ⟨-, hstack, -⟩ := hc.stack
    · exact absurd hstack hne
    · refine ⟨⟨nnn, hd⟩, hsp, fun k hk => ?_⟩
      simp [hstack, Vector.getElem_set_ne, Ne.symm hk]
    · exact absurd hstack hne
  · intro hne
    obtain ⟨i, u, hd, hc, rfl⟩ := (cycle_of_step h).changed (π := State.sp) hne (fun _ _ => rfl) rfl
    obtain ⟨-, hsp⟩ | ⟨nnn, rfl, -, -, hsp⟩ | ⟨rfl, -, hsp⟩ := hc.stack
    · exact absurd hsp hne
    · exact .inl ⟨⟨nnn, hd⟩, hsp⟩
    · exact .inr ⟨hd, hsp⟩

/-- Settles O22: only an instruction that completes can have changed a cell. -/
theorem framebufferHasTwoWriters : Obligations.FramebufferHasTwoWriters := by
  intro s t h hne
  obtain ⟨i, u, hd, hc, rfl⟩ := (cycle_of_step h).changed (π := State.fb) hne (fun _ _ => rfl) rfl
  obtain rfl | ⟨x, y, n, rfl⟩ := hc.frame hne
  · exact .inl hd
  · exact .inr ⟨x, y, n, hd⟩

/-- Settles O23: a byte outside the run that is written reads as before. -/
theorem memoryHasTwoWriters : Obligations.MemoryHasTwoWriters := by
  intro s t a h hne
  obtain ⟨i, u, hd, hc, rfl⟩ := (cycle_of_step h).changed (π := (·.mem.read a)) hne (fun _ _ => rfl) rfl
  obtain hmem | ⟨hi, bs, hlen, hmem⟩ := hc.mem
  · exact absurd (congrArg (·.read a) hmem) hne
  · refine ⟨i, hd, hi, ?_⟩
    by_contra hout
    refine hne ?_
    rw [State.timerTick_mem, hmem]
    exact Memory.read_writeBytes_outside _ _ (by omega)

/-- RND raises no fault. -/
theorem drawnBytes_of_faultOf {i : Instr} {s : State} {p : FaultCause × BitVec 17} (h : faultOf i s = some p) :
    drawnBytes i = 0 := by
  cases i with
  | rndVxKk => simp [faultOf, State.outOfBounds, dataBytes] at h
  | _ => rfl

/-- Settles O24: a fault, a no-op and the tick draw nothing, and RND raises no fault. -/
theorem oneRandomByteIsDrawnForEachRnd : Obligations.OneRandomByteIsDrawnForEachRnd := by
  intro s t hs hpc h
  cases cycle_of_step h with
  | halted hh => simp [hs] at hh
  | fetchOob _ hout => omega
  | noOp _ _ e hd ht => rw [hd, ht]; rfl
  | raises _ _ i hd f n hf ht =>
    have hdraws : t.draws = s.draws + drawnBytes i := by rw [ht, drawnBytes_of_faultOf hf]; rfl
    rw [hd, hdraws]
    cases i <;> rfl
  | completes _ _ i hd _ u _ hc ht =>
    rw [hd, ht, State.timerTick_draws, hc.draws]
    cases i <;> rfl

/-- Settles O17: what the instruction leaves in each timer is ticked once. -/
theorem timersCountDownOncePerCycle : Obligations.TimersCountDownOncePerCycle := by
  intro s t hs h ht
  cases cycle_of_step h with
  | halted hh => simp [hs] at hh
  | fetchOob _ _ he => simp [he] at ht
  | noOp _ _ e hd he => rw [hd, he]; exact ⟨toNat_tickDown s.dt, toNat_tickDown s.st⟩
  | raises _ _ i hd f n hf he => simp [he, ne_noFault_of_faultOf hf] at ht
  | completes _ _ i hd _ u _ hc he =>
    rw [hd, he, State.timerTick_dt, State.timerTick_st, toNat_tickDown, toNat_tickDown, hc.dt, hc.st]
    cases i <;> exact ⟨rfl, rfl⟩

end Sys2Proof.Machine
end

section
/-! PROOFS. The faults (60_exceptions.md R171, R172, R179) and the invariant of every cycle. -/

namespace Sys2Proof.Machine

/-- The cause an instruction leaves in FAULT. -/
def faultCause (i : Instr) (s : State) : FaultCause := ((faultOf i s).map Prod.fst).getD .noFault

theorem faultCause_of_faultOf {i : Instr} {s : State} {f : FaultCause} {n : BitVec 17}
    (h : faultOf i s = some (f, n)) : faultCause i s = f := by simp [faultCause, h]

/-- An instruction that leaves a cause has the fault of that cause. -/
theorem faultOf_of_faultCause {i : Instr} {s : State} (h : faultCause i s ≠ .noFault) :
    ∃ n, faultOf i s = some (faultCause i s, n) := by
  unfold faultCause at h ⊢
  cases hf : faultOf i s with
  | none => simp [hf] at h
  | some p => exact ⟨p.2, rfl⟩

theorem faultCause_ne_fetchOob (i : Instr) (s : State) : faultCause i s ≠ .fetchOob := by
  intro h
  obtain ⟨n, hf⟩ := faultOf_of_faultCause (by simp [h] : faultCause i s ≠ .noFault)
  obtain ⟨hc, -⟩ | ⟨hc, -⟩ | ⟨hc, -⟩ := faultOf_cases hf <;> simp [h] at hc

theorem faultCause_eq_stackOverflow_iff (i : Instr) (s : State) :
    faultCause i s = .stackOverflow ↔ s.sp = 16 ∧ ∃ nnn, i = .callNnn nnn := by
  constructor
  · intro h
    obtain ⟨n, hf⟩ := faultOf_of_faultCause (by simp [h] : faultCause i s ≠ .noFault)
    obtain ⟨-, -, hcond⟩ | ⟨hc, -⟩ | ⟨hc, -⟩ := faultOf_cases hf
    · exact hcond
    all_goals simp [h] at hc
  · rintro ⟨hsp, nnn, rfl⟩
    exact faultCause_of_faultOf (if_pos hsp)

theorem faultCause_eq_stackUnderflow_iff (i : Instr) (s : State) :
    faultCause i s = .stackUnderflow ↔ s.sp = 0 ∧ i = .ret := by
  constructor
  · intro h
    obtain ⟨n, hf⟩ := faultOf_of_faultCause (by simp [h] : faultCause i s ≠ .noFault)
    obtain ⟨hc, -⟩ | ⟨-, -, hcond⟩ | ⟨hc, -⟩ := faultOf_cases hf
    case inr.inl => exact hcond
    all_goals simp [h] at hc
  · rintro ⟨hsp, rfl⟩
    exact faultCause_of_faultOf (if_pos hsp)

theorem faultCause_eq_memOob_iff (i : Instr) (s : State) :
    faultCause i s = .memOob ↔ 0 < dataBytes i ∧ 0xFFF < s.i.toNat + dataBytes i - 1 := by
  rw [← s.outOfBounds_iff]
  constructor
  · intro h
    obtain ⟨n, hf⟩ := faultOf_of_faultCause (by simp [h] : faultCause i s ≠ .noFault)
    obtain ⟨hc, -⟩ | ⟨hc, -⟩ | ⟨-, -, hcond⟩ := faultOf_cases hf
    case inr.inr => exact hcond
    all_goals simp [h] at hc
  · exact fun h => faultCause_of_faultOf (faultOf_of_outOfBounds h)

/-- The cause a running core's cycle leaves in FAULT. -/
theorem cause_of_step {s t : State} (hs : s.halted = false) (h : step s = .next t) :
    (0xFFE < s.pc.toNat ∧ t.fault.cause = .fetchOob) ∨
      (s.pc.toNat ≤ 0xFFE ∧ (∃ e, decode s.fetch = .rejected e) ∧ t.fault.cause = .noFault) ∨
      (s.pc.toNat ≤ 0xFFE ∧ ∃ i, decode s.fetch = .instr i ∧ t.fault.cause = faultCause i s) := by
  have hcause : s.fault.cause = .noFault := s.halted_eq_false_iff.mp hs
  cases cycle_of_step h with
  | halted hh => simp [hs] at hh
  | fetchOob _ hpc ht => exact .inl ⟨hpc, by rw [ht]; rfl⟩
  | noOp _ hpc e hd ht => exact .inr (.inl ⟨hpc, ⟨e, hd⟩, by rw [ht]; exact hcause⟩)
  | raises _ hpc i hd f n hf ht => exact .inr (.inr ⟨hpc, i, hd, by rw [ht, faultCause_of_faultOf hf]; rfl⟩)
  | completes _ hpc i hd hf u _ hc ht =>
    refine .inr (.inr ⟨hpc, i, hd, ?_⟩)
    rw [ht, State.timerTick_fault, hc.fault, hcause, faultCause, hf]
    rfl

/-- Settles O15: the word at PC decides which of the conditions can hold. -/
theorem faultsArePreciselyTheFourConditions : Obligations.FaultsArePreciselyTheFourConditions := by
  intro s t hs h
  obtain ⟨hpc, hc⟩ | ⟨hpc, ⟨e, hd⟩, hc⟩ | ⟨hpc, i, hd, hc⟩ := cause_of_step hs h
  · have hpc' : ¬ s.pc.toNat ≤ 0xFFE := by omega
    simp [hc, hpc, hpc']
  · have hpc' : ¬ 0xFFE < s.pc.toNat := by omega
    simp [hc, hd, hpc']
  · have hpc' : ¬ 0xFFE < s.pc.toNat := by omega
    simp [hc, hd, hpc, hpc', faultCause_ne_fetchOob, faultCause_eq_stackOverflow_iff, faultCause_eq_stackUnderflow_iff,
      faultCause_eq_memOob_iff]

/-! The invariant. -/

/-- At most 15 bytes are accessed at I. -/
theorem dataBytes_le (i : Instr) : dataBytes i ≤ 15 := by
  cases i with
  | ldMemVx x => exact Nat.le_of_lt_succ x.isLt
  | ldVxMem x => exact Nat.le_of_lt_succ x.isLt
  | drwVxVyN x y n => exact Nat.le_of_lt_succ n.isLt
  | ldBVx => exact (by decide : 3 ≤ 15)
  | _ => exact Nat.zero_le _

/-- FAULT agrees with the state that a fault of an instruction leaves. -/
theorem faultAgrees_raise {i : Instr} {s : State} {f : FaultCause} {n : BitVec 17} (h : faultOf i s = some (f, n)) :
    (s.raise f n).faultAgrees := by
  obtain ⟨rfl, rfl, hsp, -⟩ | ⟨rfl, rfl, hsp, -⟩ | ⟨rfl, rfl, hout⟩ := faultOf_cases h
  · exact ⟨rfl, hsp, rfl⟩
  · exact ⟨rfl, hsp, rfl⟩
  · obtain ⟨hlen, hlast⟩ := (s.outOfBounds_iff _).mp hout
    have hdata : dataBytes i ≤ 15 := dataBytes_le i
    have hi : s.i.toNat < 65536 := s.i.isLt
    have hinfo : (BitVec.ofNat 17 (s.lastAddress (dataBytes i))).toNat = s.i.toNat + dataBytes i - 1 :=
      Nat.mod_eq_of_lt (by rw [State.lastAddress]; omega)
    exact ⟨rfl, by simpa [hinfo] using hlast, by simp only [State.raise_fault, hinfo]; omega⟩

/-- Without a fault, FAULT agrees when it is zero, so a cycle that keeps it keeps the agreement. -/
theorem faultAgrees_of_fault_eq {s t : State} (hs : s.halted = false) (h : s.faultAgrees) (ht : t.fault = s.fault) :
    t.faultAgrees := by
  have hcause : s.fault.cause = .noFault := s.halted_eq_false_iff.mp hs
  simpa [State.faultAgrees, ht, hcause] using h

/-- An instruction that completes keeps memory canonical: the run it writes stays in memory. -/
theorem Completes.mem_wf {i : Instr} {s u : State} (hc : Completes i s u) (hf : faultOf i s = none) (hm : s.mem.wf) :
    u.mem.wf := by
  obtain hmem | ⟨-, bs, hlen, hmem⟩ := hc.mem
  · rwa [hmem]
  · by_cases hbs : 0 < dataBytes i
    · have hin : ¬ (0 < dataBytes i ∧ 0xFFF < s.i.toNat + dataBytes i - 1) := by
        rw [← s.outOfBounds_iff, inBounds_of_faultOf hf]
        decide
      rw [hmem]
      exact Memory.writeBytes_wf bs hm (by omega)
    · obtain rfl : bs = [] := List.eq_nil_of_length_eq_zero (by omega)
      rwa [hmem]

/-- An instruction that completes keeps every return address at most 0x1000: CALL pushes PC + 2. -/
theorem Completes.stack_le {i : Instr} {s u : State} (hc : Completes i s u) (hpc : s.pc.toNat ≤ 0xFFE)
    (hs : ∀ k : Fin 16, s.stack[k].toNat ≤ 0x1000) (k : Fin 16) : u.stack[k].toNat ≤ 0x1000 := by
  obtain ⟨hstack, -⟩ | ⟨-, -, _, hstack, -⟩ | ⟨-, hstack, -⟩ := hc.stack
  · rw [hstack]
    exact hs k
  · have hret : (s.pc + 2).toNat ≤ 0x1000 := by simp; omega
    simp only [hstack, Fin.getElem_fin, Vector.getElem_set]
    split
    · exact hret
    · exact hs k
  · rw [hstack]
    exact hs k

/-- Where an instruction that completes can leave PC (10_state.md R14). -/
theorem Completes.pc_le {i : Instr} {s u : State} (hc : Completes i s u) (hpc : s.pc.toNat ≤ 0xFFE)
    (hs : ∀ k : Fin 16, s.stack[k].toNat ≤ 0x1000) : u.pc.toNat ≤ 0x10FE := by
  obtain h | h | ⟨k, h⟩ := hc.pc
  · omega
  · exact h
  · rw [h]
    exact (hs k).trans (by decide)

/-- Settles O25: each way to end a cycle keeps the four parts. -/
theorem everyCycleKeepsTheInvariant : Obligations.EveryCycleKeepsTheInvariant := by
  intro s t hinv h
  obtain ⟨hmem, hpc, hstack, hfault⟩ := hinv
  cases cycle_of_step h with
  | halted _ ht => exact ht ▸ ⟨hmem, hpc, hstack, hfault⟩
  | fetchOob _ hout ht =>
    have hinfo : (s.pc.setWidth 17).toNat = s.pc.toNat := BitVec.toNat_setWidth_of_le (by decide)
    exact ht ▸ ⟨hmem, hpc, hstack, rfl, hout, hinfo⟩
  | noOp hs hin _ _ ht =>
    have hpc' : (s.pc + 2).toNat ≤ 0x10FE := by simp; omega
    exact ht ▸ ⟨hmem, hpc', hstack, faultAgrees_of_fault_eq hs hfault rfl⟩
  | raises _ _ i _ f n hf ht => exact ht ▸ ⟨hmem, hpc, hstack, faultAgrees_raise hf⟩
  | completes hs hin i _ hf u _ hc ht =>
    exact ht ▸ ⟨hc.mem_wf hf hmem, hc.pc_le hin hstack, hc.stack_le hin hstack,
      faultAgrees_of_fault_eq hs hfault hc.fault⟩

/-- Settles O26: each part by its value. -/
theorem resetMeetsTheInvariant : Obligations.ResetMeetsTheInvariant :=
  ⟨Memory.wf_nil, by decide, by decide, rfl, rfl⟩

end Sys2Proof.Machine
end

section
/-! PROOFS. The cycle step by step (30_encoding.md R60, R69), the reset state, and both under every configuration
(00_scope.md R4). -/

namespace Sys2Proof.Machine

/-- A running core whose PC lies in memory ticks after what it executes. -/
theorem step_of_running {s : State} (hs : s.halted = false) (hpc : s.pc.toNat ≤ 0xFFE) :
    step s = cycleAround .after (execute s.fetch) s := by
  simp only [step, cycleOf, hs, s.fetchable_iff.mpr hpc, if_true, Bool.false_eq_true, if_false]
  rfl

/-- Settles O8: the decoded instruction is what the cycle runs. -/
theorem stepRunsTheDecodedInstruction : Obligations.StepRunsTheDecodedInstruction := by
  intro s i hs hpc hd
  have he : execute s.fetch s = exec i s := by
    rw [execute, show decode s.fetch = .instr i from hd]
  rw [step_of_running hs hpc, cycleAround, he]
  rfl

/-- Settles O9: the routine of a no-op word is the advance alone. -/
theorem noOpWordOnlyAdvancesPcAndTicks : Obligations.NoOpWordOnlyAdvancesPcAndTicks := by
  intro s e hs hpc hd
  have he : execute s.fetch s = .next s.advance := by
    rw [execute, show decode s.fetch = .rejected e from hd]
    rfl
  have hadv : s.advance.halted = false := hs
  rw [step_of_running hs hpc, cycleAround_after _ _ _ he, hadv]
  rfl

/-- A run goes on from the state that its first cycle ends in. -/
theorem run_succ_of_step {s t : State} (h : step s = .next t) (n : Nat) : core.run (n + 1) s = core.run n t := by
  have hstep : core.step s = .next t := h
  simp [Host.Core.run, hstep]

/-- Settles O10, by induction on the number of cycles. -/
theorem haltedCoreNeverChanges : Obligations.HaltedCoreNeverChanges := by
  intro s n hs
  induction n with
  | zero => rfl
  | succ n ih => exact (run_succ_of_step (step_of_halted s hs) n).trans ih

/-- Settles O11: the fetch check comes before everything but the halt. -/
theorem fetchPastTheEndFaults : Obligations.FetchPastTheEndFaults := by
  intro s hs hpc
  have hf : s.fetchable = false := by simpa [State.fetchable] using hpc
  have hinfo : BitVec.ofNat 17 s.pc.toNat = s.pc.setWidth 17 := BitVec.ofNat_toNat ..
  simp only [step, cycleOf, hs, hf, Bool.false_eq_true, if_false, hinfo]
  rfl

/-- Settles O27: every field by its value, the font by evaluation. -/
theorem resetLeavesTheStateOfTheSpec : Obligations.ResetLeavesTheStateOfTheSpec := by
  refine ⟨rfl, rfl, Frame.cell_clear, by decide, rfl, rfl, rfl, by decide, by decide, rfl, fun a ha => ?_, by decide⟩
  have hfont : ¬ (0x050 ≤ a ∧ a < 0x0A0) := by omega
  exact if_neg hfont

/-- Settles O32: a write to one place of a vector. -/
theorem keyWriteSetsOneFlag : Obligations.KeyWriteSetsOneFlag := by
  intro s k j down
  refine ⟨?_, rfl⟩
  simp [Vector.getElem_set, Fin.ext_iff, eq_comm]

/-! Every configuration. -/

/-- The bytes that reset leaves, below the address it has reached. -/
theorem Memory.read_resetBelow (c : Config) {n : Nat} (hn : n ≤ 0x1000) {a : Nat} (ha : a < n) :
    (Memory.resetBelow c n).read a = Memory.initialUnder c a := by
  induction n with
  | zero => omega
  | succ n ih =>
    rw [Memory.resetBelow, Memory.read_write _ _ _ (Memory.resetBelow_wf c (by omega))]
    split
    · next h => rw [h]
    · next h => exact ih (by omega) (by omega)

/-- Executing a word raises a fault of its state, or leaves FAULT as it was. -/
theorem executeUnder_faults {c : Config} (hc : c.oobPolicy = .fault) {w : Word} {s t : State}
    (h : executeUnder c w s = .next t) : (∃ f n, f ≠ .noFault ∧ t = s.raise f n) ∨ t.fault = s.fault := by
  unfold executeUnder at h
  split at h
  · next i _ =>
    obtain ⟨f, n, hf, he⟩ | ⟨-, u, he, hu⟩ := execUnder_ends hc i s
    · exact .inl ⟨f, n, ne_noFault_of_faultOf hf, by simpa [h] using he⟩
    · obtain rfl : t = u := by simpa [h] using he
      exact .inr hu.fault
  · obtain rfl : s.advance = t := Host.Outcome.next.inj h
    exact .inr rfl

/-- Under either TIMER_PHASE a cycle around such a routine ends in a fault of the state it began in, or not halted: a fault
discards the tick (60_exceptions.md R172). -/
theorem cycleAround_faults {ph : TimerPhase} {run : State → Result} {s t : State} (hs : s.halted = false)
    (hrun : ∀ s' u, run s' = .next u → (∃ f n, f ≠ .noFault ∧ u = s'.raise f n) ∨ u.fault = s'.fault)
    (h : cycleAround ph run s = .next t) : (∃ f n, t = s.raise f n) ∨ t.halted = false := by
  cases ph with
  | after =>
    simp only [cycleAround] at h
    split at h
    · next u hu =>
      obtain rfl := Host.Outcome.next.inj h
      obtain ⟨f, n, hf, rfl⟩ | hfault := hrun s u hu
      · exact .inl ⟨f, n, by simp [hf]⟩
      · have hu : u.halted = false := by rw [State.halted, hfault]; exact hs
        exact .inr (by rw [hu]; exact hu)
    all_goals simp at h
  | before =>
    simp only [cycleAround] at h
    split at h
    · next u hu =>
      obtain rfl := Host.Outcome.next.inj h
      obtain ⟨f, n, hf, rfl⟩ | hfault := hrun s.timerTick u hu
      · refine .inl ⟨f, n, ?_⟩
        rw [State.halted_raise, if_pos (by simpa using hf)]
        rfl
      · have hu : u.halted = false := by rw [State.halted, hfault]; exact hs
        exact .inr (by rw [hu]; exact hu)
    all_goals simp at h

/-- Under every configuration whose OOB_POLICY is the fault, a cycle that ends halted ends in a fault of its state. -/
theorem raise_of_stepUnder {c : Config} (hc : c.oobPolicy = .fault) {s t : State} (hs : s.halted = false)
    (h : stepUnder c s = .next t) (ht : t.halted = true) : ∃ f n, t = s.raise f n := by
  simp only [stepUnder, cycleOf, hs, Bool.false_eq_true, if_false, hc] at h
  split at h
  · obtain hraise | hrun := cycleAround_faults hs (fun _ _ => executeUnder_faults hc) h
    · exact hraise
    · simp [hrun] at ht
  · exact ⟨.fetchOob, _, (Host.Outcome.next.inj h).symm⟩

/-- Under the spec's parameters the cycle is the machine's. -/
theorem stepUnder_params (s : State) : stepUnder params s = step s := by
  rw [stepUnder, funext fun w => funext fun s' => executeUnder_params w s']
  rfl

/-- Settles O14: the case of the spec's parameters, whose faults are those of every fault-policy configuration. -/
theorem faultingCyclesArePrecise : Obligations.FaultingCyclesArePrecise := by
  intro s t hs h ht
  obtain ⟨f, n, rfl⟩ := raise_of_stepUnder (c := params) rfl hs ((stepUnder_params s).trans h) ht
  exact ⟨rfl, rfl, step_of_halted _ ht⟩

/-- Settles O60: the memory of reset byte by byte, and a cycle that ends halted as a fault of its state. -/
theorem cycleAndResetUnderEveryConfiguration : Obligations.CycleAndResetUnderEveryConfiguration := by
  refine ⟨stepUnder_params, ?_, fun c => ⟨?_, fun a ha => ?_⟩, fun c s t hc hs h ht => ?_⟩
  · rw [State.resetUnder, Memory.resetUnder_eq, Memory.resetBelow_params]
    rfl
  · rw [State.resetUnder_mem, Memory.resetUnder_eq]
    exact Memory.resetBelow_wf c le_rfl
  · rw [State.resetUnder_mem, Memory.resetUnder_eq, Memory.read_resetBelow c le_rfl ha]
    rfl
  · obtain ⟨f, n, rfl⟩ := raise_of_stepUnder hc hs h ht
    exact ⟨rfl, rfl, by rw [stepUnder, cycleOf, if_pos ht]⟩

end Sys2Proof.Machine
end

section
/-! PROOFS. The arithmetic and logic family, control flow, and the timers and keys (40_alu.md, 41_control_flow.md,
43_timer_peripheral.md). -/

namespace Sys2Proof.Machine

/-! ## Arithmetic and logic -/

/-- Settles O34: each meaning is one register write. -/
theorem assignAndLogicWriteVxAlone : Obligations.AssignAndLogicWriteVxAlone := fun _ _ _ => ⟨rfl, rfl, rfl, rfl⟩

/-- A flag-writing instruction leaves its result in VX, its flag in VF unless that is VX, and every other register
(40_alu.md R80). -/
theorem State.finishAlu_spec (s : State) (x : Reg) (result flag : Byte) :
    ∃ t, s.finishAlu .flagFirst x result flag = .next t ∧ t = { s with v := t.v, pc := s.pc + 2 } ∧
      t.reg x = result ∧ (x ≠ 15 → t.reg 15 = flag) ∧ ∀ r, r ≠ x → r ≠ 15 → t.reg r = s.reg r := by
  refine ⟨_, rfl, rfl, ?_, fun hx => ?_, fun r hx hvf => ?_⟩
  · rw [reg_setResultAndFlag, if_pos rfl]
  · rw [reg_setResultAndFlag, if_neg (Ne.symm hx), if_pos (show (15 : Reg) = vf from rfl)]
  · rw [reg_setResultAndFlag, if_neg hx, if_neg (show r ≠ vf from hvf)]
    rfl

theorem flagByte_decide (p : Prop) [Decidable p] : flagByte (decide p) = if p then 1 else 0 := by
  by_cases hp : p <;> simp [flagByte, hp]

theorem toNat_lowBitFlag (b : Byte) : (lowBitFlag b).toNat = b.toNat % 2 := by
  have hbit : b.getLsbD 0 = decide (b.toNat % 2 = 1) := Nat.testBit_zero _
  rw [lowBitFlag, hbit, flagByte_decide]
  split <;> simp <;> omega

theorem toNat_highBitFlag (b : Byte) : (highBitFlag b).toNat = b.toNat / 128 := by
  have hbit : b.getLsbD 7 = decide (b.toNat / 2 ^ 7 % 2 = 1) := Nat.testBit_eq_decide_div_mod_eq
  have hb : b.toNat < 256 := b.isLt
  rw [highBitFlag, hbit, flagByte_decide]
  split <;> simp <;> omega

/-- A difference of bytes in numbers (40_alu.md R90). -/
theorem toNat_sub_byte (a b : Byte) : (a - b).toNat = (a.toNat + 256 - b.toNat) % 256 := by
  have hb : b.toNat < 256 := b.isLt
  rw [BitVec.toNat_sub]
  congr 1
  omega

/-- Settles O35: the sum and its carry, as the end of a flag-writing instruction. -/
theorem addWrapsAndVfIsTheCarry : Obligations.AddWrapsAndVfIsTheCarry := by
  intro x y s
  obtain ⟨t, he, hframe, hres, hflag, hother⟩ :=
    s.finishAlu_spec x (s.reg x + s.reg y) (carryFlag (s.reg x) (s.reg y))
  refine ⟨t, he, hframe, ?_, fun hx => ?_, hother⟩
  · rw [hres, BitVec.toNat_add]
  · rw [hflag hx, carryFlag, flagByte_decide]

/-- Settles O36: the two differences, as the end of a flag-writing instruction. -/
theorem subtractionsWrapAndVfIsStrictlyGreater : Obligations.SubtractionsWrapAndVfIsStrictlyGreater := by
  intro x y s
  constructor
  · obtain ⟨t, he, hframe, hres, hflag, hother⟩ :=
      s.finishAlu_spec x (s.reg x - s.reg y) (greaterFlag (s.reg x) (s.reg y))
    refine ⟨t, he, hframe, by rw [hres, toNat_sub_byte], fun hx => ?_, hother⟩
    rw [hflag hx, greaterFlag, flagByte_decide]
  · obtain ⟨t, he, hframe, hres, hflag, hother⟩ :=
      s.finishAlu_spec x (s.reg y - s.reg x) (greaterFlag (s.reg y) (s.reg x))
    refine ⟨t, he, hframe, by rw [hres, toNat_sub_byte], fun hx => ?_, hother⟩
    rw [hflag hx, greaterFlag, flagByte_decide]

/-- Settles O37: the shifts are a division and a multiplication by 2, the bits shifted out a remainder and a quotient. -/
theorem shiftsMoveOneBitIntoVf : Obligations.ShiftsMoveOneBitIntoVf := by
  intro x s
  constructor
  · obtain ⟨t, he, hframe, hres, hflag, hother⟩ := s.finishAlu_spec x (s.reg x >>> 1) (lowBitFlag (s.reg x))
    refine ⟨t, he, hframe, ?_, fun hx => by rw [hflag hx, toNat_lowBitFlag], hother⟩
    rw [hres, BitVec.toNat_ushiftRight, Nat.shiftRight_eq_div_pow]
  · obtain ⟨t, he, hframe, hres, hflag, hother⟩ := s.finishAlu_spec x (s.reg x <<< 1) (highBitFlag (s.reg x))
    refine ⟨t, he, hframe, ?_, fun hx => by rw [hflag hx, toNat_highBitFlag], hother⟩
    rw [hres, BitVec.toNat_shiftLeft, Nat.shiftLeft_eq, Nat.mul_comm]

/-! ## Control flow -/

/-- Settles O38: every cell of the cleared framebuffer is off. -/
theorem clsTurnsEveryCellOff : Obligations.ClsTurnsEveryCellOff := fun _ => ⟨_, rfl, Frame.cell_clear, rfl⟩

/-- Settles O39: the address, and the sum that does not wrap. -/
theorem jumpsSetPc : Obligations.JumpsSetPc :=
  fun nnn s => ⟨⟨_, rfl, toNat_addressOf nnn, rfl⟩, ⟨_, rfl, toNat_widen_add_addressOf (s.reg 0) nnn, rfl⟩⟩

/-- Settles O41: each skip's condition, as `Skip(cond)` takes it. -/
theorem skipsOnInequalityAndOnRegisters : Obligations.SkipsOnInequalityAndOnRegisters := by
  intro x y kk s
  have hsne : exec (.sneVxKk x kk) s = .next (s.advance.skipIf (s.v[x] != kk)) := rfl
  have hse : exec (.seVxVy x y) s = .next (s.advance.skipIf (s.v[x] == s.v[y])) := rfl
  have hsnev : exec (.sneVxVy x y) s = .next (s.advance.skipIf (s.v[x] != s.v[y])) := rfl
  simp only [hsne, hse, hsnev, State.advance_skipIf, bne_iff_ne, beq_iff_eq, and_self]

/-- CALL with a free slot (41_control_flow.md R103). -/
theorem exec_callNnn_of_lt (nnn : Addr12) (s : State) (h : s.sp.val < 16) :
    exec (.callNnn nnn) s = .next { s with
      stack := s.stack.set s.sp.val (s.pc + 2), sp := ⟨s.sp.val + 1, by omega⟩, pc := addressOf nnn } :=
  dif_pos h

/-- RET with a return address on the stack (41_control_flow.md R101). -/
theorem exec_ret_of_pos (s : State) (h : 0 < s.sp.val) :
    exec .ret s = .next { s with sp := ⟨s.sp.val - 1, by omega⟩, pc := s.stack[s.sp.val - 1]'(by omega) } :=
  dif_pos h

/-- Settles O42: the slot that is set, and the others. -/
theorem callPushesTheReturnAddress : Obligations.CallPushesTheReturnAddress := by
  intro nnn s h
  refine ⟨_, exec_callNnn_of_lt nnn s h, rfl, Vector.getElem_set_self _, fun k hk => ?_, toNat_addressOf nnn, rfl⟩
  exact Vector.getElem_set_ne h k.isLt (Ne.symm hk)

/-- Settles O43: the pop. -/
theorem retPopsTheReturnAddress : Obligations.RetPopsTheReturnAddress :=
  fun s h => ⟨_, exec_ret_of_pos s h, rfl, rfl, rfl⟩

/-- Settles O44: RET pops the slot that CALL wrote. -/
theorem retAfterCallComesBack : Obligations.RetAfterCallComesBack := by
  intro nnn s h
  refine ⟨_, _, exec_callNnn_of_lt nnn s h, exec_ret_of_pos _ (Nat.succ_pos _), ?_, ?_, fun k hk => ?_, ?_⟩
  · exact Vector.getElem_set_self _
  · exact Vector.getElem_set_self _
  · exact Vector.getElem_set_ne h k.isLt (Ne.symm hk)
  · rfl

/-! ## Timers and keys -/

/-- Settles O52: each meaning is one write. -/
theorem timerTransfers : Obligations.TimerTransfers := fun _ _ => ⟨rfl, rfl, rfl⟩

theorem State.pressed_of_lt (s : State) {b : Byte} (h : b.toNat < 16) : s.pressed b = s.key[b.toNat] := dif_pos h

theorem State.pressed_of_ge (s : State) {b : Byte} (h : 16 ≤ b.toNat) : s.pressed b = false :=
  dif_neg (Nat.not_lt.mpr h)

/-- SKP VX advances PC by 4 when the key VX names is pressed and by 2 otherwise. -/
theorem exec_skpVx (x : Reg) (s : State) :
    exec (.skpVx x) s = .next { s with pc := s.pc + (if s.pressed s.v[x] then 4 else 2) } :=
  congrArg Host.Outcome.next (s.advance_skipIf _)

/-- SKNP VX advances PC by 2 when the key VX names is pressed and by 4 otherwise. -/
theorem exec_sknpVx (x : Reg) (s : State) :
    exec (.sknpVx x) s = .next { s with pc := s.pc + (if !s.pressed s.v[x] then 4 else 2) } :=
  congrArg Host.Outcome.next (s.advance_skipIf _)

/-- Settles O54: both clauses are cases of the key test. -/
theorem skpSkipsOnAPressedKey : Obligations.SkpSkipsOnAPressedKey := by
  intro x s
  refine ⟨fun h => ?_, fun h => ?_⟩
  · rw [exec_skpVx, State.pressed_of_ge s h]
    rfl
  · rw [exec_skpVx, State.pressed_of_lt s h]

/-- Settles O55: both clauses are cases of the key test. -/
theorem sknpSkipsUnlessThePressedKey : Obligations.SknpSkipsUnlessThePressedKey := by
  intro x s
  refine ⟨fun h => ?_, fun h => ?_⟩
  · rw [exec_sknpVx, State.pressed_of_ge s h]
    rfl
  · rw [exec_sknpVx, State.pressed_of_lt s h]
    cases s.key[s.v[x].toNat] <;> rfl

/-- The scan finds the least pressed key (43_timer_peripheral.md R146). -/
theorem State.firstKey_eq_some {s : State} {k : Fin 16} (hk : s.key[k] = true)
    (hleast : ∀ j : Fin 16, j < k → s.key[j] = false) : s.firstKey = some k := by
  refine List.find?_eq_some_iff_getElem.mpr ⟨hk, k.val, by simp, by simp, fun j hj => ?_⟩
  have := hleast ⟨j, by omega⟩ hj
  simpa using this

/-- The scan finds no key when none is pressed. -/
theorem State.firstKey_eq_none {s : State} (h : ∀ k : Fin 16, s.key[k] = false) : s.firstKey = none :=
  List.find?_eq_none.mpr fun k _ => by simp [h k]

/-- Settles O56: what the scan of the keys finds. -/
theorem keyWaitTakesTheLeastKeyOrStays : Obligations.KeyWaitTakesTheLeastKeyOrStays := by
  intro x s
  refine ⟨fun k hk hleast => ?_, fun hnone => ?_⟩
  · have hfirst := State.firstKey_eq_some hk hleast
    obtain ⟨j, hj, he⟩ | ⟨hn, -⟩ := execLdVxK_ends x s
    · obtain rfl : j = k := by simpa [hfirst, eq_comm] using hj
      exact he
    · simp [hfirst] at hn
  · have hfirst := State.firstKey_eq_none hnone
    obtain ⟨j, hj, -⟩ | ⟨-, he⟩ := execLdVxK_ends x s
    · simp [hfirst] at hj
    · exact he

end Sys2Proof.Machine
end

section
/-! PROOFS. The memory and register transfer family (42_mem_transfer.md). -/

namespace Sys2Proof.Machine

/-- Settles O45: register and index writes, the sum as a number modulo 256. -/
theorem immediatesIntoVxAndI : Obligations.ImmediatesIntoVxAndI := by
  intro x kk nnn s
  have hsum : s.reg x + kk = BitVec.ofNat 8 ((s.v[x].toNat + kk.toNat) % 256) :=
    BitVec.eq_of_toNat_eq (by simp [State.reg])
  have hnnn : addressOf nnn = BitVec.ofNat 16 nnn.toNat := (BitVec.ofNat_toNat ..).symm
  refine ⟨rfl, ?_, ?_⟩
  · rw [← hsum]
    rfl
  · rw [← hnnn]
    rfl

/-- Settles O46: the glyph address of any byte fits 16 bits. -/
theorem indexRegisterArithmetic : Obligations.IndexRegisterArithmetic := by
  intro x s
  refine ⟨⟨_, rfl, ?_, rfl⟩, ⟨_, rfl, ?_, rfl⟩⟩
  · rw [State.setI_i, BitVec.toNat_add, toNat_widen]
  · have hx : (s.reg x).toNat < 256 := (s.reg x).isLt
    exact Nat.mod_eq_of_lt (show 0x050 + 5 * (s.reg x).toNat < 2 ^ 16 by omega)

/-- Settles O51: one register write of the drawn byte under the mask. -/
theorem rndMasksOneFreshByte : Obligations.RndMasksOneFreshByte := by
  intro x kk s
  have hx : (s.advance.drawRnd.2.setReg x (s.drawRnd.1 &&& kk)).reg x = Config.rndByte s.draws &&& kk := by
    rw [State.reg_setReg, if_pos rfl]
    rfl
  refine ⟨_, rfl, hx, ?_, fun r hr => ?_, rfl⟩
  · rw [hx, BitVec.and_assoc]
    simp
  · rw [State.reg_setReg, if_neg hr]
    rfl

/-- LD [I],VX in bounds (42_mem_transfer.md R124). -/
theorem exec_ldMemVx_inBounds {x : Reg} {s : State} (h : x.val = 0 ∨ s.i.toNat + x.val - 1 ≤ 0xFFF) :
    exec (.ldMemVx x) s = .next (s.advance.storeAtI (s.regsBelow x)) :=
  State.access_inBounds s _ _ h

/-- The dump's bytes are the registers below X in ascending order. -/
theorem State.getElem_regsBelow (s : State) (x k : Reg) (h : k.val < (s.regsBelow x).length) :
    (s.regsBelow x)[k.val] = s.reg k := by
  simp [State.regsBelow, State.reg]

/-- The bytes of a dump are read back (42_mem_transfer.md R124). -/
theorem read_storeAtI_regsBelow {x k : Reg} {s : State} (hm : s.mem.wf)
    (h : x.val = 0 ∨ s.i.toNat + x.val - 1 ≤ 0xFFF) (hk : k < x) :
    (s.advance.storeAtI (s.regsBelow x)).mem.read (s.i.toNat + k.val) = s.reg k := by
  have hlt : k.val < x.val := hk
  have hlen : k.val < (s.regsBelow x).length := by rwa [State.length_regsBelow]
  have hfit : s.i.toNat + (s.regsBelow x).length ≤ 0x1000 := by rw [State.length_regsBelow]; omega
  exact (Memory.read_writeBytes_inside hm hfit hlen).trans (State.getElem_regsBelow s x k hlen)

/-- Settles O47: the run of stored bytes, read inside and outside. -/
theorem dumpStoresTheRegistersBelowX : Obligations.DumpStoresTheRegistersBelowX := by
  intro x s hm h
  refine ⟨_, exec_ldMemVx_inBounds h, fun k hk => read_storeAtI_regsBelow hm h hk, fun a ha => ?_, rfl⟩
  exact Memory.read_writeBytes_outside _ _ (by rwa [State.length_regsBelow])

/-- Settles O48: the loaded registers. -/
theorem loadReadsTheRegistersBelowX : Obligations.LoadReadsTheRegistersBelowX :=
  fun x s h => ⟨_, exec_ldVxMem_inBounds h, s.getElem_loadBelow x, rfl⟩

/-- Settles O49: the load reads the bytes that the dump left. -/
theorem loadAfterDumpRestores : Obligations.LoadAfterDumpRestores := by
  intro x s between hm h
  refine ⟨_, _, exec_ldMemVx_inBounds h, exec_ldVxMem_inBounds h, fun k => ?_⟩
  refine (State.getElem_loadBelow _ x k).trans ?_
  split
  · next hk => exact read_storeAtI_regsBelow hm h hk
  · rfl

/-- LD B,VX in bounds, hundreds first (42_mem_transfer.md R126). -/
theorem exec_ldBVx_inBounds {x : Reg} {s : State} (h : s.i.toNat + 2 ≤ 0xFFF) :
    exec (.ldBVx x) s = .next (s.advance.storeAtI (bcdDigits .hundredsFirst (s.reg x))) :=
  State.access_inBounds s _ 3 (.inr h)

/-- A digit in a byte is that number. -/
theorem toNat_ofNat_byte {n : Nat} (h : n < 256) : (BitVec.ofNat 8 n).toNat = n := Nat.mod_eq_of_lt h

/-- Settles O50: the run of three digits, read inside and outside. -/
theorem bcdStoresThreeDigits : Obligations.BcdStoresThreeDigits := by
  intro x s hm h
  have hx : (s.reg x).toNat < 256 := (s.reg x).isLt
  have hfit : s.i.toNat + (bcdDigits .hundredsFirst (s.reg x)).length ≤ 0x1000 := by rw [length_bcdDigits]; omega
  have hdigit (k : Nat) (hk : k < 3) :
      (s.advance.storeAtI (bcdDigits .hundredsFirst (s.reg x))).mem.read (s.i.toNat + k) =
        (bcdDigits .hundredsFirst (s.reg x))[k]'(by rwa [length_bcdDigits]) :=
    Memory.read_writeBytes_inside hm hfit (by rwa [length_bcdDigits])
  refine ⟨_, exec_ldBVx_inBounds h, ?_, ?_, ?_, fun a ha => ?_, rfl⟩
  · exact (congrArg BitVec.toNat (hdigit 0 (by omega))).trans (toNat_ofNat_byte (by omega))
  · exact (congrArg BitVec.toNat (hdigit 1 (by omega))).trans (toNat_ofNat_byte (by omega))
  · exact (congrArg BitVec.toNat (hdigit 2 (by omega))).trans (toNat_ofNat_byte (by omega))
  · exact Memory.read_writeBytes_outside _ _ (by rwa [length_bcdDigits])

end Sys2Proof.Machine
end

section
/-! PROOFS. The draw instruction (44_draw.md R160 to R164): a sprite's cells are different cells, so each is toggled once. -/

namespace Sys2Proof.Machine

/-! ## Drawing a list of different cells -/

/-- What a draw leaves in each cell, when no cell is toggled twice. -/
theorem Frame.cell_draw {ns : List Nat} (f : Frame) (hd : ns.Nodup) (hn : ∀ n ∈ ns, n < 2048) (k : Nat) :
    (f.draw ns).1.cell k = if k ∈ ns then !f.cell k else f.cell k := by
  induction ns generalizing f with
  | nil => simp [Frame.draw]
  | cons n ns ih =>
    obtain ⟨hnew, hd⟩ := List.nodup_cons.mp hd
    obtain ⟨hn, hns⟩ := List.forall_mem_cons.mp hn
    rw [Frame.draw, ih (f.toggle n) hd hns, Frame.cell_toggle f n k hn]
    by_cases hk : k = n
    · subst hk
      simp [hnew]
    · simp [hk]

/-- The collision flag, when no cell is toggled twice: a cell of the list was on at the start. -/
theorem Frame.draw_collides_iff {ns : List Nat} (f : Frame) (hd : ns.Nodup) (hn : ∀ n ∈ ns, n < 2048) :
    (f.draw ns).2 = true ↔ ∃ n ∈ ns, f.cell n = true := by
  induction ns generalizing f with
  | nil => simp [Frame.draw]
  | cons n ns ih =>
    obtain ⟨hnew, hd⟩ := List.nodup_cons.mp hd
    obtain ⟨hn, hns⟩ := List.forall_mem_cons.mp hn
    have hrest : (∃ m ∈ ns, (f.toggle n).cell m = true) ↔ ∃ m ∈ ns, f.cell m = true := by
      refine exists_congr fun m => and_congr_right fun hm => ?_
      rw [Frame.cell_toggle f n m hn, if_neg (ne_of_mem_of_not_mem hm hnew)]
    simp [Frame.draw, ih (f.toggle n) hd hns, hrest]

/-- A framebuffer is its 2048 cells. -/
theorem Frame.ext_cell {f g : Frame} (h : ∀ n < 2048, f.cell n = g.cell n) : f = g := by
  refine Vector.ext fun y hy => BitVec.eq_of_getLsbD_eq fun x hx => ?_
  have hcell := h (y * 64 + x) (by omega)
  have hdiv : (y * 64 + x) / 64 = y := by omega
  have hmod : (y * 64 + x) % 64 = x := by omega
  simpa [Frame.cell, hdiv, hmod, hy] using hcell

/-- Drawing the same different cells twice restores the framebuffer. -/
theorem Frame.draw_draw {ns : List Nat} (f : Frame) (hd : ns.Nodup) (hn : ∀ n ∈ ns, n < 2048) :
    ((f.draw ns).1.draw ns).1 = f := by
  refine Frame.ext_cell fun k _ => ?_
  rw [Frame.cell_draw _ hd hn, Frame.cell_draw f hd hn]
  by_cases hk : k ∈ ns <;> simp [hk]

/-! ## The cells of a sprite -/

/-- The cells of one sprite row. -/
theorem mem_rowCells {ox row c : Nat} {b : Byte} : c ∈ rowCells .literal ox row b ↔
    c < 2048 ∧ ∃ k < 8, b.getLsbD (7 - k) = true ∧ c = row * 64 + (ox + k) := by
  simp only [rowCells, List.mem_filterMap, List.mem_range, pixelCell, Option.ite_none_right_eq_some,
    Option.some.injEq]
  constructor
  · rintro ⟨k, hk, hbit, hc, rfl⟩
    exact ⟨hc, k, hk, hbit, rfl⟩
  · rintro ⟨hc, k, hk, hbit, rfl⟩
    exact ⟨k, hk, hbit, hc, rfl⟩

/-- The cells of a sprite, row by row. -/
theorem mem_spriteCells {ox row c : Nat} {bs : List Byte} : c ∈ spriteCells .literal ox row bs ↔
    c < 2048 ∧ ∃ r, ∃ h : r < bs.length, ∃ k < 8, bs[r].getLsbD (7 - k) = true ∧ c = (row + r) * 64 + (ox + k) := by
  induction bs generalizing row with
  | nil => simp [spriteCells]
  | cons b bs ih =>
    rw [spriteCells, List.mem_append, mem_rowCells, ih]
    constructor
    · rintro (⟨hc, k, hk, hbit, rfl⟩ | ⟨hc, r, hr, k, hk, hbit, rfl⟩)
      · exact ⟨hc, 0, Nat.succ_pos _, k, hk, hbit, rfl⟩
      · exact ⟨hc, r + 1, Nat.succ_lt_succ hr, k, hk, hbit, by omega⟩
    · rintro ⟨hc, r, hr, k, hk, hbit, rfl⟩
      cases r with
      | zero => exact .inl ⟨hc, k, hk, hbit, rfl⟩
      | succ r => exact .inr ⟨hc, r, Nat.lt_of_succ_lt_succ hr, k, hk, hbit, by omega⟩

/-- One row's pixels have different cells. -/
theorem nodup_rowCells (ox row : Nat) (b : Byte) : (rowCells .literal ox row b).Nodup := by
  refine List.Nodup.filterMap (fun k k' c hk hk' => ?_) List.nodup_range
  simp only [pixelCell, Option.mem_def] at hk hk'
  split at hk <;> split at hk' <;> simp_all
  omega

/-- A sprite's pixels have different cells: a row's eight columns are fewer than the 64 to the next row. -/
theorem nodup_spriteCells (ox row : Nat) (bs : List Byte) : (spriteCells .literal ox row bs).Nodup := by
  induction bs generalizing row with
  | nil => exact List.nodup_nil
  | cons b bs ih =>
    refine List.Nodup.append (nodup_rowCells ox row b) (ih (row + 1)) fun c hrow hrest => ?_
    obtain ⟨-, k, hk, -, hc⟩ := mem_rowCells.mp hrow
    obtain ⟨-, r, -, k', hk', -, hc'⟩ := mem_spriteCells.mp hrest
    omega

/-- The cells DRW toggles are those its sprite covers (44_draw.md R160 to R162). -/
theorem State.mem_drawCells {s : State} {x y : Reg} {n : Nibble} {c : Nat} : c ∈ s.drawCells .literal x y n ↔
    c < 2048 ∧ spriteCovers s ((s.reg x).toNat % 64) ((s.reg y).toNat % 32) n.toNat c := by
  rw [State.drawCells, mem_spriteCells]
  simp [Memory.readBytes, spriteCovers, originColumn, originRow]

theorem State.nodup_drawCells (s : State) (x y : Reg) (n : Nibble) : (s.drawCells .literal x y n).Nodup :=
  nodup_spriteCells ..

theorem State.drawCells_lt {s : State} {x y : Reg} {n : Nibble} : ∀ c ∈ s.drawCells .literal x y n, c < 2048 :=
  fun _ hc => (State.mem_drawCells.mp hc).1

/-! ## The instruction -/

/-- The state DRW ends in when its sprite lies in memory. -/
def State.drawn (s : State) (x y : Reg) (n : Nibble) : State :=
  { s.advance with fb := (s.fb.draw (s.drawCells .literal x y n)).1 }.setReg vf
    (flagByte (s.fb.draw (s.drawCells .literal x y n)).2)

theorem exec_drwVxVyN_inBounds {x y : Reg} {n : Nibble} {s : State} (h : n = 0 ∨ s.i.toNat + n.toNat - 1 ≤ 0xFFF) :
    exec (.drwVxVyN x y n) s = .next (s.drawn x y n) :=
  State.access_inBounds s _ _ (h.imp_left (congrArg BitVec.toNat))

theorem State.cell_drawn (s : State) (x y : Reg) (n : Nibble) (c : Nat) : (s.drawn x y n).fb.cell c =
    if c ∈ s.drawCells .literal x y n then !s.fb.cell c else s.fb.cell c :=
  Frame.cell_draw s.fb (s.nodup_drawCells x y n) State.drawCells_lt c

theorem State.reg_drawn (s : State) (x y r : Reg) (n : Nibble) (hr : r ≠ 15) : (s.drawn x y n).reg r = s.reg r := by
  rw [State.drawn, State.reg_setReg, if_neg (show r ≠ vf from hr)]
  rfl

/-- VF after a draw is the collision (44_draw.md R160). -/
theorem State.vf_drawn (s : State) (x y : Reg) (n : Nibble) :
    (s.drawn x y n).reg 15 = flagByte (s.fb.draw (s.drawCells .literal x y n)).2 := by
  rw [State.drawn, State.reg_setReg, if_pos (show (15 : Reg) = vf from rfl)]

theorem flagByte_eq_one_iff (b : Bool) : flagByte b = 1 ↔ b = true := by cases b <;> decide

theorem flagByte_eq_zero_iff (b : Bool) : flagByte b = 0 ↔ ¬ b = true := by cases b <;> decide

/-- A draw collides when its sprite covers a cell that is on. -/
theorem State.draw_collides_iff (s : State) (x y : Reg) (n : Nibble) :
    (s.fb.draw (s.drawCells .literal x y n)).2 = true ↔ ∃ c < 2048, s.fb.cell c = true ∧
      spriteCovers s ((s.reg x).toNat % 64) ((s.reg y).toNat % 32) n.toNat c := by
  rw [Frame.draw_collides_iff s.fb (s.nodup_drawCells x y n) State.drawCells_lt]
  refine exists_congr fun c => ?_
  rw [State.mem_drawCells]
  tauto

/-- Settles O57: a draw toggles the covered cells once each, and its flag is the collision. -/
theorem drawTogglesTheCoveredCells : Obligations.DrawTogglesTheCoveredCells := by
  intro x y n s h
  refine ⟨_, exec_drwVxVyN_inBounds h, fun c hc => ?_, fun hon => ?_, fun hoff => ?_, fun r hr => s.reg_drawn x y r n hr, rfl⟩
  · simp [State.cell_drawn, State.mem_drawCells, hc]
  · rwa [State.vf_drawn, flagByte_eq_one_iff, State.draw_collides_iff]
  · rwa [State.vf_drawn, flagByte_eq_zero_iff, State.draw_collides_iff]

/-- With other origin registers than VF the second draw toggles the same cells. -/
theorem State.drawCells_drawn {s : State} {x y : Reg} (n : Nibble) (hx : x ≠ 15) (hy : y ≠ 15) :
    (s.drawn x y n).drawCells .literal x y n = s.drawCells .literal x y n := by
  rw [State.drawCells, State.reg_drawn s x y x n hx, State.reg_drawn s x y y n hy]
  rfl

/-- Settles O58: the second draw collides where the first one turned a cell on. -/
theorem drawingTwiceRestoresTheScreen : Obligations.DrawingTwiceRestoresTheScreen := by
  intro x y n s hx hy h
  refine ⟨_, _, exec_drwVxVyN_inBounds h, exec_drwVxVyN_inBounds h, ?_, ?_⟩
  · show ((s.drawn x y n).fb.draw ((s.drawn x y n).drawCells .literal x y n)).1 = s.fb
    rw [State.drawCells_drawn n hx hy]
    exact Frame.draw_draw s.fb (s.nodup_drawCells x y n) State.drawCells_lt
  · rw [State.vf_drawn, flagByte_eq_one_iff, State.drawCells_drawn n hx hy,
      Frame.draw_collides_iff _ (s.nodup_drawCells x y n) State.drawCells_lt]
    refine exists_congr fun c => ?_
    by_cases hc : c ∈ s.drawCells .literal x y n
    · have ⟨hlt, hcov⟩ := State.mem_drawCells.mp hc
      simp [State.cell_drawn, hc, hlt, hcov]
    · have hcov := mt State.mem_drawCells.mpr hc
      simp only [hc, false_and, false_iff]
      exact fun ⟨hlt, _, hcov'⟩ => hcov ⟨hlt, hcov'⟩

/-- Settles O59: no row is drawn, so no cell is toggled. -/
theorem drawOfNoRowsOnlyClearsVf : Obligations.DrawOfNoRowsOnlyClearsVf := fun _ _ _ => rfl

end Sys2Proof.Machine
end

section
/-! PROOFS. The end of a run (70_reset_and_hazards.md R206): the self-jump is kept, and `stateAtEnd` is the first of the
boundaries that the convention names. -/

namespace Sys2Proof.Machine

/-! ## The self-jump -/

theorem atEndOfRun_iff (s : State) : atEndOfRun s = true ↔
    s.halted = false ∧ s.pc.toNat ≤ 0xFFE ∧ decode s.fetch = .instr (.jpNnn (s.pc.setWidth 12)) := by
  rw [← s.fetchable_iff]
  simp [atEndOfRun, and_assoc]

/-- A PC below 4096 is the address that its low 12 bits name. -/
theorem addressOf_setWidth {a : Word} (h : a.toNat ≤ 0xFFE) : addressOf (a.setWidth 12) = a := by
  refine BitVec.eq_of_toNat_eq ?_
  rw [toNat_addressOf, BitVec.toNat_setWidth]
  exact Nat.mod_eq_of_lt (by omega)

/-- A jump to itself leaves the state to the tick. -/
theorem step_of_atEndOfRun {s : State} (h : atEndOfRun s = true) : step s = .next s.timerTick := by
  obtain ⟨hs, hpc, hd⟩ := (atEndOfRun_iff s).mp h
  have he : execute s.fetch s = .next s := by
    have hjp : exec (.jpNnn (s.pc.setWidth 12)) s = .next (s.setPc (addressOf (s.pc.setWidth 12))) := rfl
    rw [execute, hd, addressOf_setWidth hpc] at *
    exact hjp
  rw [step_of_running hs hpc, cycleAround_after _ _ _ he, hs]
  rfl

/-- The tick changes nothing that the convention looks at. -/
theorem atEndOfRun_timerTick (s : State) : atEndOfRun s.timerTick = atEndOfRun s := rfl

/-! ## The first boundary -/

/-- `t` is the state after `k` cycles from `s`, the limit or a boundary at which a run is over, and the first such. -/
def EndsAfter (limit k : Nat) (s t : State) : Prop :=
  core.run k s = .next t ∧ (k = limit ∨ atEndOfRun t = true) ∧
    ∀ j < k, ∀ u, core.run j s = .next u → atEndOfRun u = false

theorem endsAfter_zero (limit : Nat) (s t : State) :
    EndsAfter limit 0 s t ↔ s = t ∧ (limit = 0 ∨ atEndOfRun s = true) := by
  have hrun : core.run 0 s = .next t ↔ s = t := ⟨Host.Outcome.next.inj, congrArg _⟩
  simp only [EndsAfter, hrun, Nat.not_lt_zero, false_implies, implies_true, and_true]
  exact and_congr_right fun h => by rw [h, eq_comm (a := 0)]

theorem endsAfter_succ {s s' : State} (hstep : step s = .next s') (limit k : Nat) (t : State) :
    EndsAfter (limit + 1) (k + 1) s t ↔ atEndOfRun s = false ∧ EndsAfter limit k s' t := by
  simp only [EndsAfter, run_succ_of_step hstep, Nat.add_right_cancel_iff]
  constructor
  · rintro ⟨hrun, hend, hfirst⟩
    refine ⟨hfirst 0 (Nat.succ_pos k) s rfl, hrun, hend, fun j hj u hu => ?_⟩
    exact hfirst (j + 1) (Nat.succ_lt_succ hj) u ((run_succ_of_step hstep j).trans hu)
  · rintro ⟨hs, hrun, hend, hfirst⟩
    refine ⟨hrun, hend, fun j hj u hu => ?_⟩
    cases j with
    | zero =>
      obtain rfl : s = u := Host.Outcome.next.inj hu
      exact hs
    | succ j => exact hfirst j (Nat.lt_of_succ_lt_succ hj) u ((run_succ_of_step hstep j).symm.trans hu)

/-- The boundaries of a run are never halted. -/
theorem halted_of_endsAfter {limit k : Nat} {s t : State} (hs : s.halted = true) (h : EndsAfter limit k s t) :
    t.halted = true := by
  obtain rfl : s = t := Host.Outcome.next.inj ((haltedCoreNeverChanges s k hs).symm.trans h.1)
  exact hs

theorem stateAtEnd_of_halted {limit : Nat} {s : State} (hs : s.halted = true) : stateAtEnd limit s = none := by
  cases limit <;> exact if_pos hs

/-- A run from a halted core has no end. -/
theorem stateAtEnd_eq_some_iff_of_halted {s : State} (hs : s.halted = true) (limit : Nat) (t : State) :
    stateAtEnd limit s = some t ↔ t.halted = false ∧ ∃ k ≤ limit, EndsAfter limit k s t := by
  rw [stateAtEnd_of_halted hs]
  refine iff_of_false (by simp) fun ⟨ht, _, _, hk⟩ => ?_
  simp [halted_of_endsAfter hs hk] at ht

theorem stateAtEnd_of_atEnd {limit : Nat} {s : State} (hs : s.halted = false) (h : limit = 0 ∨ atEndOfRun s = true) :
    stateAtEnd limit s = some s := by
  cases limit with
  | zero => simp [stateAtEnd, hs]
  | succ limit => simp [stateAtEnd, hs, show atEndOfRun s = true by simpa using h]

theorem stateAtEnd_of_step {limit : Nat} {s s' : State} (hs : s.halted = false) (h : atEndOfRun s = false)
    (hstep : step s = .next s') : stateAtEnd (limit + 1) s = stateAtEnd limit s' := by
  simp [stateAtEnd, hs, h, hstep]

/-- The state at the end of a run is the first boundary, by induction on the limit. -/
theorem stateAtEnd_eq_some_iff (limit : Nat) (s t : State) :
    stateAtEnd limit s = some t ↔ t.halted = false ∧ ∃ k ≤ limit, EndsAfter limit k s t := by
  induction limit generalizing s with
  | zero =>
    cases hs : s.halted with
    | true => exact stateAtEnd_eq_some_iff_of_halted hs _ t
    | false =>
      rw [stateAtEnd_of_atEnd hs (.inl rfl)]
      simp only [Option.some.injEq, Nat.le_zero, exists_eq_left, endsAfter_zero, true_or, and_true]
      exact ⟨fun h => ⟨h ▸ hs, h⟩, fun h => h.2⟩
  | succ limit ih =>
    cases hs : s.halted with
    | true => exact stateAtEnd_eq_some_iff_of_halted hs _ t
    | false =>
      obtain ⟨s', hstep⟩ := step_isNext s
      cases hend : atEndOfRun s with
      | true =>
        rw [stateAtEnd_of_atEnd hs (.inr hend)]
        constructor
        · rintro h
          obtain rfl : s = t := Option.some.inj h
          exact ⟨hs, 0, Nat.zero_le _, (endsAfter_zero _ s s).mpr ⟨rfl, .inr hend⟩⟩
        · rintro ⟨-, k, -, hk⟩
          cases k with
          | zero => rw [((endsAfter_zero _ s t).mp hk).1]
          | succ k => simp [((endsAfter_succ hstep limit k t).mp hk).1] at hend
      | false =>
        rw [stateAtEnd_of_step hs hend hstep, ih s']
        refine and_congr_right fun _ => ⟨?_, ?_⟩
        · rintro ⟨k, hk, h⟩
          exact ⟨k + 1, Nat.succ_le_succ hk, (endsAfter_succ hstep limit k t).mpr ⟨hend, h⟩⟩
        · rintro ⟨k, hk, h⟩
          cases k with
          | zero => simp [endsAfter_zero, hend] at h
          | succ k => exact ⟨k, Nat.le_of_succ_le_succ hk, ((endsAfter_succ hstep limit k t).mp h).2⟩

/-- Settles O33: the self-jump ends in the tick alone, and the recursion of `stateAtEnd` finds the first boundary. -/
theorem endOfRunIsKept : Obligations.EndOfRunIsKept :=
  ⟨fun s h => ⟨step_of_atEndOfRun h, (atEndOfRun_timerTick s).trans h⟩, stateAtEnd_eq_some_iff⟩

end Sys2Proof.Machine
end
